-- ==== Sys2Proof/Word.lean ====
section
/-! DEFINITION. The word and byte types (spec/00_scope.md R10, R14). -/

namespace Sys2Proof

/-- A 64-bit register value: a Bitfield Register, a virtual or a physical address, a TC value (R10, R20). -/
abbrev Word := BitVec 64

/-- One byte of physical memory. -/
abbrev Byte := BitVec 8

/-- The physical-memory accessor's error value: opaque to the block, passed through unchanged (R52).
A number stands for it, since the block never looks inside.
DESIGN CHOICE (log 6), safe: every claim holds for every value. -/
abbrev AccessErr := Nat

end Sys2Proof
end

