-- ==== Sys2Proof/Machine/Bitfield.lean ====
section
/-! DEFINITION. The Bitfield Register's operations (40_bitfield_and_decoders.md R100-R105). -/

namespace Sys2Proof.Machine

/-- `ones(n) = 2^n - 1`, as a 64-bit value (R14). -/
def ones (n : Nat) : Word := BitVec.ofNat 64 (2 ^ n - 1)

/-- A Bitfield Register created from a number holds it modulo 2^64 (R105). -/
def wordOfNat (n : Nat) : Word := BitVec.ofNat 64 n

/-- The bits `[bitIndex, bitIndex+size)`, right-aligned at bit 0: the value of a `get` whose range fits (R100). -/
def field (word : Word) (bitIndex size : Nat) : Word := (word >>> bitIndex) &&& ones size

/-- The word with the bits `[bitIndex, bitIndex+size)` replaced by the low bits of `value` (R102). -/
def withField (word : Word) (bitIndex size : Nat) (value : Nat) : Word :=
  (word &&& ~~~(ones size <<< bitIndex)) ||| ((wordOfNat value &&& ones size) <<< bitIndex)

/-- BF_GET: `none` is the range violation, raised when `bitIndex + size > 64` (R100, R101). -/
def bfGet (word : Word) (bitIndex size : Nat) : Option Word :=
  if bitIndex + size > 64 then none else some (field word bitIndex size)

/-- BF_SET: the new word; `none` is the range violation, which leaves the register unchanged (R101, R102). -/
def bfSet (word : Word) (bitIndex size value : Nat) : Option Word :=
  if bitIndex + size > 64 then none else some (withField word bitIndex size value)

/-- BF_VALUE: the whole word (R104). -/
def bfValue (word : Word) : Word := word

end Sys2Proof.Machine
end

