-- ==== Sys2Proof/Config.lean ====
section
/-! DEFINITION. What is fixed for the machine: the shape of a Scheme Configuration row (R29), the port's parameters
(R10), and the one free value (the accessor's error). The table's two rows stand in Machine/SchemeTable.lean. -/

namespace Sys2Proof

/-- One row of the Scheme Configuration table (10_state.md R29). -/
structure SchemeConfig where
  /-- bytes per PTE -/
  entrySize : Nat
  /-- number of page-table levels -/
  levels : Nat
  /-- bytes per page -/
  pageSize : Nat
  /-- bits per VPN segment -/
  vpnWidth : Nat
  /-- bits of valid virtual address; informational -/
  vaWidth : Nat
  /-- per-level PPN field widths, level 0 first -/
  ppnSegmentWidths : List Nat
  deriving DecidableEq, Repr

/-- FREE VALUE (log 6). The error with which the accessor answers a read of an address that is not mapped: nothing is
known of it (R52, I12). Its arguments are the number of reads the accessor has answered before and the address. -/
opaque Config.accessorError : Nat → Word → AccessErr

end Sys2Proof
end

