-- ==== Sys2Proof/Syntax.lean ====
section
/-! DEFINITION. The eight operations (30_encoding.md R76) and the descriptor that carries one. -/

namespace Sys2Proof

/-- The two supported translation schemes (R2, R12). -/
inductive Scheme where
  | sv39
  | sv48
  deriving DecidableEq, Repr

/-- One constructor per row of the opcode table (R76). -/
inductive Instr where
  /-- BF_GET (R100) -/
  | bfGet (word : Word) (bitIndex size : Nat)
  /-- BF_SET (R102) -/
  | bfSet (word : Word) (bitIndex size value : Nat)
  /-- BF_VALUE (R104) -/
  | bfValue (word : Word)
  /-- TC_DECODE (R106) -/
  | tcDecode (raw : Word)
  /-- PTE_DECODE (R108): `bk` is the byte at the read address plus k -/
  | pteDecode (b0 b1 b2 b3 b4 b5 b6 b7 : Byte)
  /-- SCHEME_LOOKUP (R109); a selector other than 0 and 1 is ill-formed (R78) -/
  | schemeLookup (selector : Nat)
  /-- TRANSLATE.SV39 (R160) -/
  | translateSv39 (virtualAddress : Word)
  /-- TRANSLATE.SV48 (R161) -/
  | translateSv48 (virtualAddress : Word)
  deriving DecidableEq, Repr

/-- One operand of a descriptor: a typed value, not a bit field of a wider word (R76). -/
inductive Operand where
  | u64 (w : Word)
  | nat (n : Nat)
  | byte (b : Byte)
  | selector (n : Nat)
  deriving DecidableEq, Repr

/-- "The operation descriptor is the op code followed by its operands as typed values" (R76). -/
structure Descriptor where
  op : Byte
  operands : List Operand
  deriving DecidableEq, Repr

end Sys2Proof
end

