-- ==== Sys2Proof/WellFormed.lean ====
section
/-! DEFINITION. Checks on syntax: a scheme selector is 0 or 1 (R78), and a configuration row satisfies the invariants
that R31 and decision D18 require of it. -/

namespace Sys2Proof

/-- "A scheme selector other than Sv39 (0) or Sv48 (1) is refused" (R78). Every other operand is valid by its type;
an out-of-range bit range is an outcome of BF_GET and BF_SET (R101), not an ill-formed operation. -/
def Instr.wf : Instr → Bool
  | .bfGet _ _ _ => true
  | .bfSet _ _ _ _ => true
  | .bfValue _ => true
  | .tcDecode _ => true
  | .pteDecode _ _ _ _ _ _ _ _ => true
  | .schemeLookup selector => decide (selector < 2)
  | .translateSv39 _ => true
  | .translateSv48 _ => true

/-- R31 (a): one PPN width for each level. -/
def SchemeConfig.lengthOk (c : SchemeConfig) : Bool := c.ppnSegmentWidths.length == c.levels

/-- R31 (b): the PPN widths sum to the 44 bits of the root PPN field. -/
def SchemeConfig.sumOk (c : SchemeConfig) : Bool := c.ppnSegmentWidths.sum == 44

/-- R31 (c): the offset and the VPN segments make up the valid virtual address. -/
def SchemeConfig.vaWidthOk (c : SchemeConfig) : Bool := 12 + c.levels * c.vpnWidth == c.vaWidth

/-- R31 (d): below the top level every PPN segment is as wide as a VPN segment. -/
def SchemeConfig.segmentsOk (c : SchemeConfig) : Bool :=
  (c.ppnSegmentWidths.take (c.levels - 1)).all (· == c.vpnWidth)

/-- "A model that admits further rows must check (a), (b) and (d) and refuse a row that fails them" (R31, D18); the
number of levels is at least 1 (R29). -/
def SchemeConfig.admitted (c : SchemeConfig) : Bool :=
  decide (1 ≤ c.levels) && c.lengthOk && c.sumOk && c.segmentsOk

end Sys2Proof
end

