-- ==== Sys2Proof/Decode.lean ====
section
/-! DEFINITION. The decoder of operation descriptors, total and rejecting by name, and the encoder (R76, R78). -/

namespace Sys2Proof

/-- The eight assigned operation codes, by name (R76). -/
inductive Opcode where
  | bfGet
  | bfSet
  | bfValue
  | tcDecode
  | pteDecode
  | schemeLookup
  | translateSv39
  | translateSv48
  deriving DecidableEq, Repr

/-- What type of value an operand place takes (R76). -/
inductive OperandKind where
  | u64
  | nat
  | byte
  | selector
  deriving DecidableEq, Repr

/-- Why a descriptor is refused. -/
inductive DecodeError where
  /-- the op code is not in the table (R78) -/
  | unassignedOp (op : Byte)
  /-- the operands are not those of the operation, in number or in type (R76) -/
  | malformedOperands (c : Opcode)
  /-- a scheme selector other than 0 and 1 (R78) -/
  | unassignedSelector (n : Nat)
  deriving DecidableEq, Repr

/-- The 8-bit operation code (R76). -/
def Opcode.code : Opcode → Byte
  | .bfGet => 0x01#8
  | .bfSet => 0x02#8
  | .bfValue => 0x03#8
  | .tcDecode => 0x10#8
  | .pteDecode => 0x11#8
  | .schemeLookup => 0x12#8
  | .translateSv39 => 0x20#8
  | .translateSv48 => 0x21#8

/-- The rows of the table, in its order. -/
def Opcode.all : List Opcode :=
  [.bfGet, .bfSet, .bfValue, .tcDecode, .pteDecode, .schemeLookup, .translateSv39, .translateSv48]

/-- The operation that a code names, if any (R76, R78). -/
def Opcode.ofCode (op : Byte) : Option Opcode := Opcode.all.find? (fun c => c.code == op)

/-- The operand types of an operation, in order (R76). -/
def Opcode.signature : Opcode → List OperandKind
  | .bfGet => [.u64, .nat, .nat]
  | .bfSet => [.u64, .nat, .nat, .nat]
  | .bfValue => [.u64]
  | .tcDecode => [.u64]
  | .pteDecode => [.byte, .byte, .byte, .byte, .byte, .byte, .byte, .byte]
  | .schemeLookup => [.selector]
  | .translateSv39 => [.u64]
  | .translateSv48 => [.u64]

/-- The type of an operand value. -/
def Operand.kind : Operand → OperandKind
  | .u64 _ => .u64
  | .nat _ => .nat
  | .byte _ => .byte
  | .selector _ => .selector

/-- The operand value whose bits are all zero. -/
def OperandKind.zero : OperandKind → Operand
  | .u64 => .u64 0
  | .nat => .nat 0
  | .byte => .byte 0
  | .selector => .selector 0

/-- The operands of an assigned operation, read as its types say (R76). -/
def decodeOperands : Opcode → List Operand → Except DecodeError Instr
  | .bfGet, [.u64 word, .nat bitIndex, .nat size] => .ok (.bfGet word bitIndex size)
  | .bfSet, [.u64 word, .nat bitIndex, .nat size, .nat value] => .ok (.bfSet word bitIndex size value)
  | .bfValue, [.u64 word] => .ok (.bfValue word)
  | .tcDecode, [.u64 raw] => .ok (.tcDecode raw)
  | .pteDecode, [.byte b0, .byte b1, .byte b2, .byte b3, .byte b4, .byte b5, .byte b6, .byte b7] =>
    .ok (.pteDecode b0 b1 b2 b3 b4 b5 b6 b7)
  | .schemeLookup, [.selector n] => if n < 2 then .ok (.schemeLookup n) else .error (.unassignedSelector n)
  | .translateSv39, [.u64 va] => .ok (.translateSv39 va)
  | .translateSv48, [.u64 va] => .ok (.translateSv48 va)
  | c, _ => .error (.malformedOperands c)

/-- The decoder: the instruction a descriptor stands for, or why it is refused (R76, R78). -/
def decode (d : Descriptor) : Except DecodeError Instr :=
  match Opcode.ofCode d.op with
  | none => .error (.unassignedOp d.op)
  | some c => decodeOperands c d.operands

/-- The operation of an instruction. -/
def Instr.opcode : Instr → Opcode
  | .bfGet _ _ _ => .bfGet
  | .bfSet _ _ _ _ => .bfSet
  | .bfValue _ => .bfValue
  | .tcDecode _ => .tcDecode
  | .pteDecode _ _ _ _ _ _ _ _ => .pteDecode
  | .schemeLookup _ => .schemeLookup
  | .translateSv39 _ => .translateSv39
  | .translateSv48 _ => .translateSv48

/-- The operand values of an instruction, in the table's order (R76). -/
def Instr.operands : Instr → List Operand
  | .bfGet word bitIndex size => [.u64 word, .nat bitIndex, .nat size]
  | .bfSet word bitIndex size value => [.u64 word, .nat bitIndex, .nat size, .nat value]
  | .bfValue word => [.u64 word]
  | .tcDecode raw => [.u64 raw]
  | .pteDecode b0 b1 b2 b3 b4 b5 b6 b7 =>
    [.byte b0, .byte b1, .byte b2, .byte b3, .byte b4, .byte b5, .byte b6, .byte b7]
  | .schemeLookup selector => [.selector selector]
  | .translateSv39 va => [.u64 va]
  | .translateSv48 va => [.u64 va]

/-- The encoder: the descriptor of an instruction (R76). -/
def encode (i : Instr) : Descriptor := ⟨i.opcode.code, i.operands⟩

/-- The descriptor of a table word: the op code, and operands of zeros (the table gives operands no bits). -/
def Descriptor.ofTableWord (w : Nat) : Descriptor :=
  let op := BitVec.ofNat 8 w
  ⟨op, match Opcode.ofCode op with
    | none => []
    | some c => c.signature.map OperandKind.zero⟩

/-- The instruction that the decoder reads from a table word of `nbits` bits. Every row of the table has 8 bits. -/
def decodeTableWord (nbits w : Nat) : Option Instr :=
  if nbits = 8 ∧ w < 256 then
    match decode (Descriptor.ofTableWord w) with
    | .ok i => some i
    | .error _ => none
  else none

end Sys2Proof
end

