-- ==== Sys2Proof/Machine/State.lean ====
section
/-! DEFINITION. The machine's state as plain data: the block's registers and sequencer (10_state.md), its four channels
(R131), the two external capabilities it consumes (R21, R50), the other block instances (R184) and the schedule of turns.
Faults and refusals. The state after reset. -/

namespace Sys2Proof.Machine

/-- A working register. It always contains a value; the mark tells a value that a step wrote from one that stands there
since reset, for which the spec says "no value (unwritten)" (R40, R190; log 1). -/
inductive Reg (α : Type) where
  /-- not written since reset: the contents are the model's reset value -/
  | unwritten (resetValue : α)
  | holds (v : α)
  deriving DecidableEq, Repr

/-- The rights triple, copied from the leaf PTE's bits 1, 2 and 3 (R28). -/
structure Rights where
  read : Bool
  write : Bool
  execute : Bool
  deriving DecidableEq, Repr

/-- The faults of a walk: the reasons of `Faulted(reason)` (R35). -/
inductive WalkFault where
  /-- three causes: V = 0, write-only encoding, walk exhausted (R171) -/
  | invalidEntry
  /-- a superpage leaf with nonzero PPN bits below the stopping level (R172) -/
  | misalignedSuperpage
  /-- the accessor failed; its error unchanged (R173) -/
  | accessError (e : AccessErr)
  deriving DecidableEq, Repr

/-- The fault type of the boundary (R130, R170). -/
inductive TranslationFault where
  /-- TC mode = 0: not an error (R174) -/
  | translationDisabled
  | invalidEntry
  | misalignedSuperpage
  | accessError (e : AccessErr)
  deriving DecidableEq, Repr

/-- What the response register holds: exactly one of a success and a fault (R38). -/
inductive Response where
  | ok (physicalAddress : Word) (rights : Rights)
  | fault (f : TranslationFault)
  deriving DecidableEq, Repr

/-- The fields of a TC value (R22, R106). -/
structure TcFields where
  mode : BitVec 4
  addressSpaceId : BitVec 16
  rootPPN : BitVec 44
  deriving DecidableEq, Repr

/-- The fields of a PTE, with the whole word (R26, R108). -/
structure PteFields where
  valid : Bool
  read : Bool
  write : Bool
  execute : Bool
  ppn : BitVec 44
  word : Word
  deriving DecidableEq, Repr

/-- What an operation delivers to its caller (R76, column "result"). -/
inductive Result where
  /-- a 64-bit word: BF_GET, BF_SET, BF_VALUE -/
  | word (w : Word)
  /-- BF_GET and BF_SET with a range past bit 64 (R101, R175) -/
  | rangeViolation
  | tcFields (f : TcFields)
  | pteFields (f : PteFields)
  | schemeRow (c : SchemeConfig)
  /-- the response of a translation call -/
  | translation (r : Response)
  deriving DecidableEq, Repr

/-- The walk sequencer (R35). `walkingLevel i` and `leafFound i` carry the level register `i` of R34, which is stored
nowhere else (log 9). -/
inductive Ctrl where
  | idle
  | walkingLevel (i : Nat)
  | leafFound (i : Nat)
  | done
  | faulted (reason : WalkFault)
  | translationDisabled
  deriving DecidableEq, Repr

/-- The registers and the sequencer of one block instance (R20, R33-R38). -/
structure Block where
  ctrl : Ctrl
  /-- the active configuration row, as the scheme of the request (R130; log 8) -/
  scheme : Reg Scheme
  tc : Reg Word
  va : Reg Word
  pte : Reg Word
  pa : Reg Word
  /-- the VPN segments, level 0 first (R33) -/
  vpn : Reg (List (BitVec 9))
  /-- the current table's base address (R34) -/
  a : Reg Word
  response : Reg Response
  deriving DecidableEq, Repr

/-- After reset: `Idle`, and every register unwritten (R40, R190). What they contain meanwhile is the model's: zero in every
bit, with a segment for each level of the larger scheme (log 1). -/
def Block.reset : Block :=
  { ctrl := .idle
    scheme := .unwritten .sv39
    tc := .unwritten 0
    va := .unwritten 0
    pte := .unwritten 0
    pa := .unwritten 0
    vpn := .unwritten [0, 0, 0, 0]
    a := .unwritten 0
    response := .unwritten (.ok 0 ⟨false, false, false⟩) }

/-- One request on the memory-read channel: `readPhysical(address, length)` (R50, R131). -/
structure ReadRequest where
  address : Word
  length : Nat
  deriving DecidableEq, Repr

/-- One block instance with its channels (R131, R184). The three histories are the model's own (log 7). -/
structure Agent where
  block : Block
  /-- requests not yet accepted, oldest first -/
  requests : List Descriptor
  /-- results delivered, oldest first -/
  delivered : List Result
  /-- reads issued and answered, oldest first -/
  reads : List ReadRequest
  /-- TC values sampled, oldest first -/
  samples : List Word
  deriving DecidableEq, Repr

/-- A new instance: reset, with nothing on its channels. -/
def Agent.reset : Agent :=
  { block := Block.reset, requests := [], delivered := [], reads := [], samples := [] }

/-- The eight bytes of a successful answer: byte k comes from the read address plus k (R51). An answer of another length
cannot be written down (D9). -/
structure PteBytes where
  b0 : Byte
  b1 : Byte
  b2 : Byte
  b3 : Byte
  b4 : Byte
  b5 : Byte
  b6 : Byte
  b7 : Byte
  deriving DecidableEq, Repr

/-- The accessor's answer to a read (R50). -/
inductive Answer where
  | bytes (b : PteBytes)
  | error (e : AccessErr)
  deriving DecidableEq, Repr

/-- Physical memory: the bytes that are mapped, by address, strictly rising (R51, R60; log 3). -/
abbrev Memory := List Host.Cell

/-- The physical-memory accessor, external to the block (R50). -/
structure Accessor where
  mem : Memory
  /-- an answer it will give to the next read in place of memory's (R58; log 4) -/
  forced : Option Answer
  /-- whether it does not answer (R180; log 4) -/
  stalled : Bool
  /-- how many reads it has answered: the argument of the free error value (log 6) -/
  draws : Nat
  deriving DecidableEq, Repr

/-- Whose turn it is. Every turn but `block` is something that the world outside the selected instance does. -/
inductive Turn where
  /-- the selected instance takes one step -/
  | block
  /-- the k-th parked instance becomes the selected one (R184) -/
  | select (k : Nat)
  /-- another caller brings a new instance (R184) -/
  | newAgent
  /-- the caller submits a request to the selected instance (R131) -/
  | submit (d : Descriptor)
  /-- the environment changes the TC register (R21, R195, R199) -/
  | setTc (w : Word)
  /-- the environment writes, or maps, a byte of physical memory (R195, R197) -/
  | writeByte (address : Word) (b : Byte)
  /-- the environment unmaps a byte of physical memory (R60) -/
  | unmapByte (address : Word)
  /-- the accessor will answer the next read with this (R50, R58) -/
  | forceAnswer (x : Answer)
  /-- the accessor stops answering (R180) -/
  | stall
  /-- the accessor answers again -/
  | resume
  /-- the selected instance is reset (R193) -/
  | reset
  deriving DecidableEq, Repr

/-- The whole machine. -/
structure State where
  /-- the selected block instance, the one that moves -/
  cur : Agent
  /-- the other instances (R184) -/
  parked : List Agent
  /-- the external TC register (R21) -/
  tcRegister : Word
  accessor : Accessor
  /-- the turns that come next; with none listed, the block moves (log 4) -/
  schedule : List Turn
  deriving DecidableEq, Repr

/-- Why the machine stops. It is unreachable in an admitted execution, and safe: a run that stops proves nothing about a
response. -/
inductive Fault where
  /-- a step of the sequencer uses a bit range past bit 64 (R110 says that none does; log 12). Raised by the leaf step of
  Machine/Walker.lean. Safe. -/
  | walkRangeViolation
  deriving DecidableEq, Repr

/-- Why an operation gets no meaning. -/
inductive Refusal where
  /-- an instruction that has no meaning yet; raised by no arm of this model. Safe. -/
  | notModelled (mnemonic : String)
  /-- the block accepts a new request only in Idle (R131, R179). Raised by every meaning out of Idle. Safe. -/
  | busy
  /-- an unassigned op code or selector, or operands that are not the operation's (R76, R78). Raised by the step's request
  intake. Safe. -/
  | badDescriptor (e : DecodeError)
  /-- SCHEME_LOOKUP with a selector outside 0 and 1 (R78, R109). Raised by its meaning. Safe. -/
  | badSelector (n : Nat)
  deriving DecidableEq, Repr

/-- The machine right after reset (R40, R190): one instance, `Idle`, no register written, nothing on a channel. The
external capabilities' contents are unspecified (R40, R192); the model's choices for them are log 2 (TC register 0) and
log 3 (nothing mapped). -/
def State.reset : State :=
  { cur := Agent.reset
    parked := []
    tcRegister := 0
    accessor := { mem := [], forced := none, stalled := false, draws := 0 }
    schedule := [] }

end Sys2Proof.Machine
end

