-- ==== Sys2Proof/Machine/Flags.lean ====
section
/-! DEFINITION. The PTE's four flag bits, the block's only flags (10_state.md R27), the type they give an entry (R73) and
the rights triple (R28). -/

namespace Sys2Proof.Machine

/-- One bit of a word, as a flag: `word.get(k, 1) = 1`. -/
def flag (word : Word) (k : Nat) : Bool := field word k 1 == 1#64

/-- V, bit 0 (R71). -/
def pteValid (pte : Word) : Bool := flag pte 0

/-- R, bit 1 (R71). -/
def pteRead (pte : Word) : Bool := flag pte 1

/-- W, bit 2 (R71). -/
def pteWrite (pte : Word) : Bool := flag pte 2

/-- X, bit 3 (R71). -/
def pteExecute (pte : Word) : Bool := flag pte 3

/-- The rights triple observed at a leaf (R28, R150). -/
def pteRights (pte : Word) : Rights :=
  { read := pteRead pte, write := pteWrite pte, execute := pteExecute pte }

/-- What kind of entry a PTE is (R73). -/
inductive PteType where
  /-- V = 0 -/
  | invalid
  /-- V = 1, R = 0, W = 1, whatever X -/
  | reserved
  /-- V = 1, R = W = X = 0 -/
  | pointer
  /-- valid, not reserved, R = 1 or X = 1 -/
  | leaf
  deriving DecidableEq, Repr

/-- The checks of one level in their order: validity, then leaf, then pointer (R138-R141, R73). -/
def pteType (pte : Word) : PteType :=
  if pteValid pte = false then .invalid
  else if pteRead pte = false ∧ pteWrite pte = true then .reserved
  else if pteRead pte = true ∨ pteExecute pte = true then .leaf
  else .pointer

end Sys2Proof.Machine
end

