-- ==== Sys2Proof/Machine/SchemeTable.lean ====
section
/-! DEFINITION. The Scheme Configuration table (10_state.md R29, R30): constant data, neither written nor reset. -/

namespace Sys2Proof.Machine

/-- The two rows of R30. -/
def schemeRow : Scheme → SchemeConfig
  | .sv39 =>
    { entrySize := 8, levels := 3, pageSize := 4096, vpnWidth := 9, vaWidth := 39, ppnSegmentWidths := [9, 9, 26] }
  | .sv48 =>
    { entrySize := 8, levels := 4, pageSize := 4096, vpnWidth := 9, vaWidth := 48, ppnSegmentWidths := [9, 9, 9, 17] }

/-- The selector of a scheme in the table (R30). -/
def schemeSelector : Scheme → Nat
  | .sv39 => 0
  | .sv48 => 1

/-- The scheme a selector names; a selector outside 0 and 1 names none (R78). -/
def schemeOfSelector : Nat → Option Scheme
  | 0 => some .sv39
  | 1 => some .sv48
  | _ => none

/-- The bytes a leaf at level `i` maps: `4096 * 2^(9*i)` (R17). -/
def pageBytes (c : SchemeConfig) (i : Nat) : Nat := c.pageSize * 2 ^ (c.vpnWidth * i)

end Sys2Proof.Machine
end

