-- ==== Sys2Proof/Machine/Operands.lean ====
section
/-! DEFINITION. The bit layouts of the operands: the TC value (R70), the PTE (R71, R72), the virtual address (R74) and the
little-endian bytes of a PTE (R53). -/

namespace Sys2Proof.Machine

/-- The TC value's mode, bits [60,64) (R70). -/
def tcMode (tc : Word) : BitVec 4 := (field tc 60 4).setWidth 4

/-- The TC value's address-space id, bits [44,60) (R70). -/
def tcAddressSpaceId (tc : Word) : BitVec 16 := (field tc 44 16).setWidth 16

/-- The TC value's root PPN, bits [0,44) (R70). -/
def tcRootPPN (tc : Word) : BitVec 44 := (field tc 0 44).setWidth 44

/-- The Translation Control Decoder (R106): the same for both schemes (R107). -/
def tcFields (raw : Word) : TcFields :=
  { mode := tcMode raw, addressSpaceId := tcAddressSpaceId raw, rootPPN := tcRootPPN raw }

/-- Whether a mode value starts a walk: "Any `mode ≠ 0` starts a walk", whatever the scheme asked for (R23, D3, I15). -/
def modeAccepted (_ : Scheme) (mode : BitVec 4) : Bool := mode != 0#4

/-- The PTE's PPN, bits [10,54) (R71). -/
def ptePpn (pte : Word) : BitVec 44 := (field pte 10 44).setWidth 44

/-- `le(b[0..8))`: the byte at the lowest address is the least significant (R15, R53). -/
def le (b : PteBytes) : Word :=
  b.b0.setWidth 64 ||| (b.b1.setWidth 64 <<< 8) ||| (b.b2.setWidth 64 <<< 16) ||| (b.b3.setWidth 64 <<< 24)
    ||| (b.b4.setWidth 64 <<< 32) ||| (b.b5.setWidth 64 <<< 40) ||| (b.b6.setWidth 64 <<< 48)
    ||| (b.b7.setWidth 64 <<< 56)

/-- The PTE decode (R108): bits [4,10) and [54,64) stay in `word` and are not decoded. -/
def pteFields (b : PteBytes) : PteFields :=
  let word := le b
  { valid := pteValid word
    read := pteRead word
    write := pteWrite word
    execute := pteExecute word
    ppn := ptePpn word
    word := word }

/-- The PTE with given fields and zeros in the undecoded bits (R71). -/
def packPte (valid read write execute : Bool) (ppn : BitVec 44) : Word :=
  (ppn.setWidth 64 <<< 10) ||| (if execute then 8#64 else 0#64) ||| (if write then 4#64 else 0#64)
    ||| (if read then 2#64 else 0#64) ||| (if valid then 1#64 else 0#64)

/-- The width of the PPN segments below level `i`: `sum(ppnSegmentWidths[0:i])` (R15, R149). -/
def ppnLow (cfg : SchemeConfig) (i : Nat) : Nat := (cfg.ppnSegmentWidths.take i).sum

/-- The width of the PPN segments from level `i` up: `sum(ppnSegmentWidths[i:levels])` (R149). -/
def ppnHigh (cfg : SchemeConfig) (i : Nat) : Nat := ((cfg.ppnSegmentWidths.take cfg.levels).drop i).sum

/-- PPN segment `k` of a PTE: bits `[10 + sum(w[0:k]), 10 + sum(w[0:k+1]))` (R72). -/
def ppnSegment (cfg : SchemeConfig) (pte : Word) (k : Nat) : Word :=
  field pte (10 + ppnLow cfg k) (cfg.ppnSegmentWidths.getD k 0)

/-- `vpn[i] = VA.get(12 + i*vpnWidth, vpnWidth)` (R33, R74). -/
def vpnSegment (cfg : SchemeConfig) (va : Word) (i : Nat) : BitVec 9 :=
  (field va (12 + i * cfg.vpnWidth) cfg.vpnWidth).setWidth 9

/-- All the segments of a virtual address, level 0 first (R33, R134). -/
def vpnSegments (cfg : SchemeConfig) (va : Word) : List (BitVec 9) :=
  (List.range cfg.levels).map (vpnSegment cfg va)

/-- A frame's base address: `ppn * pageSize` (R25, R143). -/
def frameBase (cfg : SchemeConfig) (ppn : BitVec 44) : Word := wordOfNat (ppn.toNat * cfg.pageSize)

end Sys2Proof.Machine
end

