-- ==== Sys2Proof/Machine/Ops.lean ====
section
/-! DEFINITION. The shared operations: physical memory and its accessor (20_memory.md), register reads, accepting a
request, reporting an outcome and delivering it (60_exceptions.md R178). -/

namespace Sys2Proof.Machine

/-! ## Physical memory -/

/-- What an address that is not listed reads as: nothing, it is not mapped (R60; log 3). -/
def Memory.unlisted : Option Byte := none

/-- The canonical form: addresses strictly rising and inside the 64-bit physical space (R59). No entry can equal what an
unlisted address reads as, which is no byte. -/
def Memory.wf : Memory → Bool
  | [] => true
  | [c] => decide (c.1 < 2 ^ 64)
  | c :: d :: rest => decide (c.1 < d.1) && Memory.wf (d :: rest)

/-- The byte at an address. -/
def Memory.read : Memory → Nat → Option Byte
  | [], _ => Memory.unlisted
  | c :: rest, addr => if c.1 = addr then some c.2 else Memory.read rest addr

/-- Map a byte at an address, or replace the one there. -/
def Memory.write : Memory → Nat → Byte → Memory
  | [], addr, b => [(addr, b)]
  | c :: rest, addr, b =>
    if c.1 < addr then c :: Memory.write rest addr b
    else if c.1 = addr then (addr, b) :: rest
    else (addr, b) :: c :: rest

/-- Unmap the byte at an address. -/
def Memory.unmap : Memory → Nat → Memory
  | [], _ => []
  | c :: rest, addr => if c.1 = addr then rest else c :: Memory.unmap rest addr

/-- The eight bytes from an address up, if all are mapped: answer byte `k` is the byte at `A + k` (R51). -/
def Memory.readPte (m : Memory) (addr : Nat) : Option PteBytes := do
  let b0 ← m.read addr
  let b1 ← m.read (addr + 1)
  let b2 ← m.read (addr + 2)
  let b3 ← m.read (addr + 3)
  let b4 ← m.read (addr + 4)
  let b5 ← m.read (addr + 5)
  let b6 ← m.read (addr + 6)
  let b7 ← m.read (addr + 7)
  some ⟨b0, b1, b2, b3, b4, b5, b6, b7⟩

/-! ## The accessor -/

/-- What the accessor answers to a read of 8 bytes: the answer forced on it, else the bytes of memory, else the error of
an address that is not mapped (R50, R51, R173). -/
def Accessor.answer (acc : Accessor) (addr : Word) : Answer :=
  match acc.forced with
  | some x => x
  | none =>
    match acc.mem.readPte addr.toNat with
    | some b => .bytes b
    | none => .error (Config.accessorError acc.draws addr)

/-- The accessor after it has answered: a forced answer holds for one read (log 4). -/
def Accessor.answered (acc : Accessor) : Accessor := { acc with forced := none, draws := acc.draws + 1 }

/-! ## Registers -/

/-- Read a working register. One that was not written since reset reads as its reset value (log 1); no step of a call does
that (R41). -/
def Reg.read {α : Type} (r : Reg α) : α :=
  match r with
  | .unwritten v => v
  | .holds v => v

/-- The configuration row of the active call (R130). -/
def Block.config (b : Block) : SchemeConfig := schemeRow b.scheme.read

/-- Read `vpn[i]` (R33). A segment that a call did not write reads as at reset (log 1). -/
def Block.vpnAt (b : Block) (i : Nat) : BitVec 9 := b.vpn.read.getD i 0

/-- The level register `i` (R34): it is held in `ctrl`, and is written only there (log 9). -/
def Block.level (b : Block) : Reg Nat :=
  match b.ctrl with
  | .walkingLevel i => .holds i
  | .leafFound i => .holds i
  | _ => .unwritten 0

/-! ## Outcomes -/

/-- The boundary's name for a walk fault (R130, R35). -/
def WalkFault.toTranslationFault : WalkFault → TranslationFault
  | .invalidEntry => .invalidEntry
  | .misalignedSuperpage => .misalignedSuperpage
  | .accessError e => .accessError e

/-- `raise F(info)` in a walk: the sequencer goes to `Faulted(reason)` and the response register takes the fault. Nothing
else changes: no state is saved, no mode changed, no vector taken (R15, R38, R178). -/
def Block.raise (b : Block) (f : WalkFault) : Block :=
  { b with ctrl := .faulted f, response := .holds (.fault f.toTranslationFault) }

/-- The disabled outcome at call start (R133, R174). -/
def Block.disable (b : Block) : Block :=
  { b with ctrl := .translationDisabled, response := .holds (.fault .translationDisabled) }

/-- `return Ok(pa, rights)`: the sequencer goes to `Done` (R15, R150). -/
def Block.succeed (b : Block) (pa : Word) (rights : Rights) : Block :=
  { b with ctrl := .done, response := .holds (.ok pa rights) }

/-- The numeric code of an outcome of R170; the other results of the datapath operations are successes, code 0. -/
def Result.code : Result → Nat
  | .word _ => 0
  | .tcFields _ => 0
  | .pteFields _ => 0
  | .schemeRow _ => 0
  | .translation (.ok _ _) => 0
  | .translation (.fault .translationDisabled) => 1
  | .translation (.fault .invalidEntry) => 2
  | .translation (.fault .misalignedSuperpage) => 3
  | .translation (.fault (.accessError _)) => 4
  | .rangeViolation => 5

/-! ## State updates -/

/-- The state with another block in the selected instance. -/
def State.withBlock (s : State) (b : Block) : State := { s with cur := { s.cur with block := b } }

/-- Put a result on the selected instance's response channel (R131). -/
def State.deliver (s : State) (r : Result) : State :=
  { s with cur := { s.cur with delivered := s.cur.delivered ++ [r] } }

/-- Record a TC sample on the TC channel (R131). -/
def State.sampled (s : State) (w : Word) : State :=
  { s with cur := { s.cur with samples := s.cur.samples ++ [w] } }

/-- Record an answered read on the memory-read channel (R131), and move the accessor past it. -/
def State.afterRead (s : State) (addr : Word) (length : Nat) : State :=
  { s with
    cur := { s.cur with reads := s.cur.reads ++ [⟨addr, length⟩] }
    accessor := s.accessor.answered }

/-- Accept an operation: "The block accepts a new request only in `Idle`" (R131, R179; log 10). -/
def State.accept (s : State) (effect : State) : Host.Outcome State Fault Refusal :=
  if s.cur.block.ctrl = .idle then .next effect else .refused .busy

/-- Deliver the response of a call that has ended, and return to `Idle` with every register unwritten (R131, R178, R190;
log 7). This is the return from every outcome: nothing was saved, so nothing is restored (R179). -/
def State.deliverResponse (s : State) : State :=
  (s.deliver (.translation s.cur.block.response.read)).withBlock Block.reset

end Sys2Proof.Machine
end

