-- ==== Sys2Proof/Machine/BitfieldOps.lean ====
section
/-! DEFINITION. The meanings of BF_GET, BF_SET and BF_VALUE (40_bitfield_and_decoders.md section 1). Each is a pure
function of its operands; the result goes to the caller and no register of the block changes (log 10). -/

namespace Sys2Proof.Machine

/-- What BF_GET and BF_SET report: the word, or the range violation (R101, R175). -/
def rangeResult : Option Word → Result
  | none => .rangeViolation
  | some w => .word w

/-- BF_GET (R100). -/
def execBfGet (word : Word) (bitIndex size : Nat) (s : State) : Host.Outcome State Fault Refusal :=
  s.accept (s.deliver (rangeResult (bfGet word bitIndex size)))

/-- BF_SET (R102): the new word is the result. -/
def execBfSet (word : Word) (bitIndex size value : Nat) (s : State) : Host.Outcome State Fault Refusal :=
  s.accept (s.deliver (rangeResult (bfSet word bitIndex size value)))

/-- BF_VALUE (R104). -/
def execBfValue (word : Word) (s : State) : Host.Outcome State Fault Refusal :=
  s.accept (s.deliver (.word (bfValue word)))

end Sys2Proof.Machine
end

