-- ==== Sys2Proof/Machine/Decoders.lean ====
section
/-! DEFINITION. The meanings of TC_DECODE, PTE_DECODE and SCHEME_LOOKUP (40_bitfield_and_decoders.md sections 2-4). -/

namespace Sys2Proof.Machine

/-- TC_DECODE (R106): every 64-bit value decodes. -/
def execTcDecode (raw : Word) (s : State) : Host.Outcome State Fault Refusal :=
  s.accept (s.deliver (.tcFields (tcFields raw)))

/-- PTE_DECODE (R108): no validity check; the walker judges validity. -/
def execPteDecode (b0 b1 b2 b3 b4 b5 b6 b7 : Byte) (s : State) : Host.Outcome State Fault Refusal :=
  s.accept (s.deliver (.pteFields (pteFields ⟨b0, b1, b2, b3, b4, b5, b6, b7⟩)))

/-- SCHEME_LOOKUP (R109): the row of R30; a selector outside 0 and 1 is refused (R78). -/
def execSchemeLookup (selector : Nat) (s : State) : Host.Outcome State Fault Refusal :=
  match schemeOfSelector selector with
  | some scheme => s.accept (s.deliver (.schemeRow (schemeRow scheme)))
  | none => .refused (.badSelector selector)

end Sys2Proof.Machine
end

