-- ==== Sys2Proof/Machine/Translate.lean ====
section
/-! DEFINITION. The meanings of TRANSLATE.SV39 and TRANSLATE.SV48 (41_walker.md R130, R160, R161): the start of a call
(R133, R134). The sequencer carries the call on from there, one step of R132 at a time (log 13). -/

namespace Sys2Proof.Machine

/-- Walk initialisation: `VA`, `vpn`, `i = levels-1`, `a = rootPPN * pageSize` (R134). -/
def Block.initWalk (b : Block) (cfg : SchemeConfig) (va tc : Word) : Block :=
  { b with
    va := .holds va
    vpn := .holds (vpnSegments cfg va)
    a := .holds (frameBase cfg (tcRootPPN tc))
    ctrl := .walkingLevel (cfg.levels - 1) }

/-- Call start on the block, with the TC value sampled: disabled when the mode is 0, else a walk with the scheme asked for
(R133, R23). -/
def Block.startCall (b : Block) (scheme : Scheme) (va tc : Word) : Block :=
  let b := { b with scheme := .holds scheme, tc := .holds tc }
  if modeAccepted scheme (tcMode tc) then b.initWalk (schemeRow scheme) va tc else b.disable

/-- `translate(scheme, virtualAddress)`: sample the TC register once, and start the call (R130, R133). -/
def startTranslation (scheme : Scheme) (va : Word) (s : State) : Host.Outcome State Fault Refusal :=
  s.accept ((s.sampled s.tcRegister).withBlock (s.cur.block.startCall scheme va s.tcRegister))

/-- TRANSLATE.SV39 (R160). -/
def execTranslateSv39 (virtualAddress : Word) (s : State) : Host.Outcome State Fault Refusal :=
  startTranslation .sv39 virtualAddress s

/-- TRANSLATE.SV48 (R161). -/
def execTranslateSv48 (virtualAddress : Word) (s : State) : Host.Outcome State Fault Refusal :=
  startTranslation .sv48 virtualAddress s

end Sys2Proof.Machine
end

