-- ==== Sys2Proof/Machine/Dispatch.lean ====
section
/-! DEFINITION. One arm per operation (30_encoding.md R76). -/

namespace Sys2Proof.Machine

def exec (i : Instr) (s : State) : Host.Outcome State Fault Refusal :=
  match i with
  | .bfGet word bitIndex size => Sys2Proof.Machine.execBfGet word bitIndex size s
  | .bfSet word bitIndex size value => Sys2Proof.Machine.execBfSet word bitIndex size value s
  | .bfValue word => Sys2Proof.Machine.execBfValue word s
  | .tcDecode raw => Sys2Proof.Machine.execTcDecode raw s
  | .pteDecode b0 b1 b2 b3 b4 b5 b6 b7 => Sys2Proof.Machine.execPteDecode b0 b1 b2 b3 b4 b5 b6 b7 s
  | .schemeLookup selector => Sys2Proof.Machine.execSchemeLookup selector s
  | .translateSv39 virtualAddress => Sys2Proof.Machine.execTranslateSv39 virtualAddress s
  | .translateSv48 virtualAddress => Sys2Proof.Machine.execTranslateSv48 virtualAddress s

end Sys2Proof.Machine
end

