-- ==== Sys2Proof/Machine/Environment.lean ====
section
/-! DEFINITION. The turns of everything outside the selected block instance: the caller, the other instances, the owner of
the TC register, whoever writes physical memory, the accessor and reset (R131, R184, R195, R197, R50, R180, R193). None
of them can fail, and none is a step of the block. -/

namespace Sys2Proof.Machine

/-- Another instance becomes the selected one; a number with no instance changes nothing (R184; log 11). -/
def State.select (s : State) (k : Nat) : State :=
  match s.parked[k]? with
  | none => s
  | some x => { s with cur := x, parked := s.parked.set k s.cur }

/-- Reset of the selected instance: the call is abandoned with no response, and the sequencer is `Idle`; nothing outside
the block changes (R193; log 14). -/
def State.resetBlock (s : State) : State := s.withBlock Block.reset

/-- A request arrives on the selected instance's channel (R131). -/
def State.submit (s : State) (d : Descriptor) : State :=
  { s with cur := { s.cur with requests := s.cur.requests ++ [d] } }

/-- One turn of the world outside the selected instance. The turn `block` is the instance's own, and Machine/Step.lean
gives it. -/
def State.applyTurn (s : State) : Turn → State
  | .block => s
  | .select k => s.select k
  | .newAgent => { s with parked := s.parked ++ [Agent.reset] }
  | .submit d => s.submit d
  | .setTc w => { s with tcRegister := w }
  | .writeByte address b => { s with accessor := { s.accessor with mem := s.accessor.mem.write address.toNat b } }
  | .unmapByte address => { s with accessor := { s.accessor with mem := s.accessor.mem.unmap address.toNat } }
  | .forceAnswer x => { s with accessor := { s.accessor with forced := some x } }
  | .stall => { s with accessor := { s.accessor with stalled := true } }
  | .resume => { s with accessor := { s.accessor with stalled := false } }
  | .reset => s.resetBlock

end Sys2Proof.Machine
end

