-- ==== Sys2Proof/Machine/Intake.lean ====
section
/-! DEFINITION. The request channel's end in the block: which request comes next and what it decodes to (R131, R78). -/

namespace Sys2Proof.Machine

/-- What the request channel offers a block that is `Idle`. -/
inductive Intake where
  /-- no request: the block waits (R191; log 5) -/
  | nothing
  /-- a descriptor that is refused (R78) -/
  | bad (e : DecodeError)
  /-- an operation, and the state with its request taken -/
  | operation (i : Instr) (s : State)
  deriving DecidableEq, Repr

/-- Take the oldest request and decode it (R131, R78). -/
def State.intake (s : State) : Intake :=
  match s.cur.requests with
  | [] => .nothing
  | d :: rest =>
    match decode d with
    | .error e => .bad e
    | .ok i => .operation i { s with cur := { s.cur with requests := rest } }

end Sys2Proof.Machine
end

