-- ==== Sys2Proof/Machine/Walker.lean ====
section
/-! DEFINITION. The walk: one level (41_walker.md R135-R143), the leaf step with the alignment check and the assembly
(R145-R150). One generic walker over a configuration row (R130, R154). -/

namespace Sys2Proof.Machine

/-- `pteAddr = a + vpn[i] * entrySize` (R136). -/
def pteAddress (cfg : SchemeConfig) (a : Word) (vpn : BitVec 9) : Word :=
  wordOfNat (a.toNat + vpn.toNat * cfg.entrySize)

/-- The read address of the level `i` step, with the row that is active. -/
def Block.pteAddress (b : Block) (i : Nat) : Word := Machine.pteAddress b.config b.a.read (b.vpnAt i)

/-- `a <- PTE.ppn * pageSize` and on to the level below (R142, R143). The PPN is used in full, whatever the scheme. -/
def Block.descend (b : Block) (cfg : SchemeConfig) (pte : Word) (below : Nat) : Block :=
  { b with a := .holds (frameBase cfg (ptePpn pte)), ctrl := .walkingLevel below }

/-- What a level does with the PTE it has read: the checks in their order (R138-R143). A pointer at level 0 exhausts the
walk; the level index never goes below 0 anywhere a step could see it (R34, R142). -/
def Block.examine (b : Block) (cfg : SchemeConfig) (i : Nat) (pte : Word) : Block :=
  match pteType pte with
  | .invalid => b.raise .invalidEntry
  | .reserved => b.raise .invalidEntry
  | .leaf => { b with ctrl := .leafFound i }
  | .pointer =>
    match i with
    | 0 => b.raise .invalidEntry
    | below + 1 => b.descend cfg pte below

/-- What a level does with the accessor's answer: an access error ends the call before any PTE check (R137, R139). -/
def Block.afterAnswer (b : Block) (cfg : SchemeConfig) (i : Nat) (x : Answer) : Block :=
  match x with
  | .error e => b.raise (.accessError e)
  | .bytes bytes => ({ b with pte := .holds (le bytes) } : Block).examine cfg i (le bytes)

/-- One `WalkingLevel(i)` step: exactly one read (R135). An accessor that does not answer leaves the call with no step
(R180, D15; log 4). -/
def walkStep (i : Nat) (s : State) : Host.Outcome State Fault Refusal :=
  if s.accessor.stalled then .next s
  else
    let cfg := s.cur.block.config
    let addr := s.cur.block.pteAddress i
    .next ((s.afterRead addr cfg.entrySize).withBlock (s.cur.block.afterAnswer cfg i (s.accessor.answer addr)))

/-- A Bitfield operation inside the walk: R110 says that its range always fits (log 12). -/
def inRange (r : Option Word) : Except Fault Word :=
  match r with
  | none => .error .walkRangeViolation
  | some w => .ok w

/-- The superpage alignment check: is `PTE.get(10, i*vpnWidth)` zero, for `i > 0`? (R145) -/
def superpageAligned (cfg : SchemeConfig) (i : Nat) (pte : Word) : Except Fault Bool :=
  if i = 0 then .ok true
  else do
    let low ← inRange (bfGet pte 10 (i * cfg.vpnWidth))
    return low == 0#64

/-- The physical-address assembly: page offset (R147), superpage pass-through (R148), frame number (R149), from an
accumulator that starts at 0 (R146). -/
def assemble (cfg : SchemeConfig) (i : Nat) (va pte : Word) : Except Fault Word := do
  let offset ← inRange (bfGet va 0 12)
  let pa ← inRange (bfSet 0#64 0 12 offset.toNat)
  let pa ←
    if i = 0 then .ok pa
    else do
      let through ← inRange (bfGet va 12 (i * cfg.vpnWidth))
      inRange (bfSet pa 12 (i * cfg.vpnWidth) through.toNat)
  let frame ← inRange (bfGet pte (10 + ppnLow cfg i) (ppnHigh cfg i))
  inRange (bfSet pa (12 + ppnLow cfg i) (ppnHigh cfg i) frame.toNat)

/-- The `LeafFound(i)` step on the block: `MisalignedSuperpage`, or the assembled address and the rights (R145-R150). No
permission is enforced (R151). -/
def Block.leaf (b : Block) (i : Nat) : Except Fault Block := do
  let pte := b.pte.read
  if ← superpageAligned b.config i pte then
    let pa ← assemble b.config i b.va.read pte
    return ({ b with pa := .holds pa } : Block).succeed pa (pteRights pte)
  else
    return b.raise .misalignedSuperpage

/-- One `LeafFound(i)` step: no read (R132). -/
def leafStep (i : Nat) (s : State) : Host.Outcome State Fault Refusal :=
  match s.cur.block.leaf i with
  | .error f => .fault f
  | .ok b => .next (s.withBlock b)

end Sys2Proof.Machine
end

