-- ==== Sys2Proof/Machine/Step.lean ====
section
/-! DEFINITION. One step: the schedule says whose turn it is (log 4); the block's own step is one row of R132. -/

namespace Sys2Proof.Machine

/-- One step of the selected block instance (R132). -/
def blockStep (s : State) : Host.Outcome State Fault Refusal :=
  match s.cur.block.ctrl with
  | .idle =>
    match s.intake with
    | .nothing => .next s
    | .bad e => .refused (.badDescriptor e)
    | .operation i s' => exec i s'
  | .walkingLevel i => walkStep i s
  | .leafFound i => leafStep i s
  | .done => .next s.deliverResponse
  | .faulted _ => .next s.deliverResponse
  | .translationDisabled => .next s.deliverResponse

/-- One step of the machine: the next turn of the schedule; with none listed, the block's. -/
def step (s : State) : Host.Outcome State Fault Refusal :=
  match s.schedule with
  | [] => blockStep s
  | .block :: rest => blockStep { s with schedule := rest }
  | turn :: rest => .next (({ s with schedule := rest } : State).applyTurn turn)

/-- The operation of a table word placed where the step takes its next one: at the head of the selected instance's request
channel, with the instance `Idle` (any call in progress abandoned as by reset, R193) and the block's turn next (log 5). -/
def State.withFetchWord (s : State) (nbits w : Nat) : State :=
  { s with
    cur :=
      { s.cur with
        block := if s.cur.block.ctrl = .idle then s.cur.block else Block.reset
        requests := Descriptor.ofTableWord (w % 2 ^ nbits) :: s.cur.requests }
    schedule := match s.schedule with
      | [] => []
      | turns => .block :: turns }

end Sys2Proof.Machine
end

