-- ==== Sys2Proof/Machine/Text.lean ====
section
/-! DEFINITION. The text syntax of the operations (30_encoding.md R82), on lists of characters. It has no semantic content
(D13): a line is read into an operation, and an operation is written as a line (log 15). -/

namespace Sys2Proof.Machine

/-- The characters of a line, cut at each occurrence of one character. -/
def splitAt (c : Char) : List Char → List (List Char)
  | [] => [[]]
  | x :: rest =>
    if x = c then [] :: splitAt c rest
    else
      match splitAt c rest with
      | [] => [[x]]
      | part :: parts => (x :: part) :: parts

/-- A part without the spaces around it. -/
def trimSpaces (cs : List Char) : List Char :=
  ((cs.dropWhile (· = ' ')).reverse.dropWhile (· = ' ')).reverse

/-- The value of a digit, decimal or hexadecimal. -/
def digitValue (c : Char) : Option Nat :=
  if '0' ≤ c ∧ c ≤ '9' then some (c.toNat - '0'.toNat)
  else if 'a' ≤ c ∧ c ≤ 'f' then some (c.toNat - 'a'.toNat + 10)
  else if 'A' ≤ c ∧ c ≤ 'F' then some (c.toNat - 'A'.toNat + 10)
  else none

/-- Digits in a base, most significant first, after a value already read. -/
def digitsValue (base : Nat) : Nat → List Char → Option Nat
  | acc, [] => some acc
  | acc, c :: rest =>
    match digitValue c with
    | some d => if d < base then digitsValue base (acc * base + d) rest else none
    | none => none

/-- "Numbers are written in C-style hexadecimal (`0x…`) or decimal" (R82). -/
def parseNumber : List Char → Option Nat
  | [] => none
  | ['0', 'x'] => none
  | '0' :: 'x' :: digits => digitsValue 16 0 digits
  | digits => digitsValue 10 0 digits

/-- A number that fits a u64 operand. -/
def parseWord (cs : List Char) : Option Word :=
  match parseNumber cs with
  | some n => if n < 2 ^ 64 then some (BitVec.ofNat 64 n) else none
  | none => none

/-- A number that fits a byte operand. -/
def parseByte (cs : List Char) : Option Byte :=
  match parseNumber cs with
  | some n => if n < 2 ^ 8 then some (BitVec.ofNat 8 n) else none
  | none => none

/-- A scheme's name. -/
def parseScheme (cs : List Char) : Option Scheme :=
  if cs = ['s', 'v', '3', '9'] then some .sv39
  else if cs = ['s', 'v', '4', '8'] then some .sv48
  else none

/-- The operation that a mnemonic and its operands name (R82). -/
def parseOperation (mnemonic : String) (operands : List (List Char)) : Option Instr :=
  match operands with
  | [x] =>
    if mnemonic = "bf.value" then (parseWord x).map .bfValue
    else if mnemonic = "tc.decode" then (parseWord x).map .tcDecode
    else if mnemonic = "scheme" then
      (parseScheme x).map fun scheme =>
        match scheme with
        | .sv39 => .schemeLookup 0
        | .sv48 => .schemeLookup 1
    else none
  | [x, y] =>
    if mnemonic = "translate" then do
      let va ← parseWord y
      match ← parseScheme x with
      | .sv39 => some (.translateSv39 va)
      | .sv48 => some (.translateSv48 va)
    else none
  | [x, y, z] =>
    if mnemonic = "bf.get" then do
      some (.bfGet (← parseWord x) (← parseNumber y) (← parseNumber z))
    else none
  | [x, y, z, v] =>
    if mnemonic = "bf.set" then do
      some (.bfSet (← parseWord x) (← parseNumber y) (← parseNumber z) (← parseNumber v))
    else none
  | [b0, b1, b2, b3, b4, b5, b6, b7] =>
    if mnemonic = "pte.decode" then do
      some (.pteDecode (← parseByte b0) (← parseByte b1) (← parseByte b2) (← parseByte b3) (← parseByte b4)
        (← parseByte b5) (← parseByte b6) (← parseByte b7))
    else none
  | _ => none

/-- One line: the mnemonic, spaces, the operands with commas between them (R82). -/
def parseLine (line : String) : Option Instr :=
  let cs := trimSpaces line.toList
  let mnemonic := cs.takeWhile (· ≠ ' ')
  parseOperation (String.ofList mnemonic) ((splitAt ',' (cs.dropWhile (· ≠ ' '))).map trimSpaces)

/-- "A program is a sequence of lines. Each line is one operation" (R82): the descriptors of a program's lines. -/
def parseProgram (lines : List String) : Option (List Descriptor) :=
  lines.mapM fun line => (parseLine line).map encode

/-- A number in C-style hexadecimal. -/
def hexText (n : Nat) : String := "0x" ++ String.ofList (Nat.toDigits 16 n)

/-- Operands with commas between them. -/
def commaText : List String → String
  | [] => ""
  | [x] => x
  | x :: rest => x ++ ", " ++ commaText rest

/-- An operation as a line of text (R82). -/
def instrText : Instr → String
  | .bfGet word bitIndex size => "bf.get " ++ commaText [hexText word.toNat, hexText bitIndex, hexText size]
  | .bfSet word bitIndex size value =>
    "bf.set " ++ commaText [hexText word.toNat, hexText bitIndex, hexText size, hexText value]
  | .bfValue word => "bf.value " ++ hexText word.toNat
  | .tcDecode raw => "tc.decode " ++ hexText raw.toNat
  | .pteDecode b0 b1 b2 b3 b4 b5 b6 b7 =>
    "pte.decode " ++ commaText ([b0, b1, b2, b3, b4, b5, b6, b7].map fun b => hexText b.toNat)
  | .schemeLookup selector => "scheme " ++ (if selector = 0 then "sv39" else if selector = 1 then "sv48" else "?")
  | .translateSv39 va => "translate sv39, " ++ hexText va.toNat
  | .translateSv48 va => "translate sv48, " ++ hexText va.toNat

end Sys2Proof.Machine
end

