-- ==== Sys2Proof/Machine/Reference.lean ====
section
/-! DEFINITION. The whole translation as one function, R153, in the arithmetic of natural numbers and with its closed form
for the physical address. No step of the machine calls it: claims say that the sequencer, which works on bit fields one
step at a time, gives the same response and issues the same reads. -/

namespace Sys2Proof.Machine

/-- The answers a call's reads get: `mem k addr` is the answer to the call's read number `k`, from 0, at `addr`. -/
abbrev MemRead := Nat → Word → Answer

/-- `vpn[i] = va.get(12 + 9i, 9)`, on numbers. -/
def refVpn (va i : Nat) : Nat := va / 2 ^ (12 + 9 * i) % 512

/-- `le(b[0..8)) = Σ b[k] * 2^(8k)` (R15). -/
def refLe (b : PteBytes) : Nat :=
  b.b0.toNat + b.b1.toNat * 2 ^ 8 + b.b2.toNat * 2 ^ 16 + b.b3.toNat * 2 ^ 24 + b.b4.toNat * 2 ^ 32
    + b.b5.toNat * 2 ^ 40 + b.b6.toNat * 2 ^ 48 + b.b7.toNat * 2 ^ 56

/-- `pte.get(10, 44)`, on numbers. -/
def refPpn (pte : Nat) : Nat := pte / 2 ^ 10 % 2 ^ 44

/-- The leaf at level `i`: misaligned, or `(ppn << 12) | (va & ones(12 + 9i))` with the rights (R153). -/
def refLeaf (va pte i : Nat) : Response :=
  if refPpn pte % 2 ^ (9 * i) ≠ 0 then .fault .misalignedSuperpage
  else .ok (BitVec.ofNat 64 (refPpn pte * 4096 + va % 2 ^ (12 + 9 * i)))
    ⟨pte.testBit 1, pte.testBit 2, pte.testBit 3⟩

/-- The loop of R153 at level `i`, with the table at `a` and `k` reads made before: the response, and the reads. -/
def refWalk (va : Nat) (mem : MemRead) : Nat → Nat → Nat → Response × List ReadRequest
  | i, a, k =>
    let addr := BitVec.ofNat 64 (a + refVpn va i * 8)
    match mem k addr with
    | .error e => (.fault (.accessError e), [⟨addr, 8⟩])
    | .bytes b =>
      let pte := refLe b
      if pte.testBit 0 = false ∨ (pte.testBit 1 = false ∧ pte.testBit 2 = true) then
        (.fault .invalidEntry, [⟨addr, 8⟩])
      else if pte.testBit 1 = true ∨ pte.testBit 3 = true then (refLeaf va pte i, [⟨addr, 8⟩])
      else
        match i with
        | 0 => (.fault .invalidEntry, [⟨addr, 8⟩])
        | below + 1 =>
          let rest := refWalk va mem below (refPpn pte * 4096) (k + 1)
          (rest.1, ⟨addr, 8⟩ :: rest.2)

/-- The number of page-table levels of a scheme (R2, R10). -/
def refLevels : Scheme → Nat
  | .sv39 => 3
  | .sv48 => 4

/-- `translate(cfg, va, TCRead, MemRead)` (R153): the response and the reads issued, in order. -/
def refTranslate (scheme : Scheme) (va tc : Word) (mem : MemRead) : Response × List ReadRequest :=
  if tc.toNat / 2 ^ 60 = 0 then (.fault .translationDisabled, [])
  else refWalk va.toNat mem (refLevels scheme - 1) (tc.toNat % 2 ^ 44 * 4096) 0

/-- The operation `translate(scheme, va)`: TRANSLATE.SV39 or TRANSLATE.SV48 (R130, R160, R161). -/
def translateInstr : Scheme → Word → Instr
  | .sv39, va => .translateSv39 va
  | .sv48, va => .translateSv48 va

/-- The answers that an accessor left to itself gives to the next reads: a forced answer to the first, and memory's
answers to the rest. -/
def Accessor.undisturbed (acc : Accessor) : MemRead := fun k addr =>
  ({ acc with forced := if k = 0 then acc.forced else none, draws := acc.draws + k } : Accessor).answer addr

/-- The answers of a list, in order: an oracle that need not come from any one memory (R58, R63). Past the list's end it
does not matter what stands. -/
def oracle (answers : List Answer) : MemRead := fun k _ =>
  match answers[k]? with
  | some x => x
  | none => .error 0

/-- The turns under which a call's reads get the answers of a list: the call start, then each answer before a turn of the
block, then two turns for the leaf step and the delivery. -/
def oracleTurns (answers : List Answer) : List Turn :=
  .block :: (answers.flatMap fun x => [.forceAnswer x, .block]) ++ [.block, .block]

end Sys2Proof.Machine
end

