-- ==== Sys2Proof/Safety.lean ====
section
/-! DEFINITION. What counts as a safe machine state: which registers hold what in each state of the sequencer (10_state.md
R34-R41), memory in canonical form, and what it is for a step not to stop. -/

namespace Sys2Proof.Machine

/-- The terminal states of the sequencer (R35). -/
def Ctrl.terminal : Ctrl → Bool
  | .idle => false
  | .walkingLevel _ => false
  | .leafFound _ => false
  | .done => true
  | .faulted _ => true
  | .translationDisabled => true

/-- Has the register been written since reset? (R40, R41) -/
def Reg.isWritten {α : Type} : Reg α → Bool
  | .unwritten _ => false
  | .holds _ => true

/-- A register that was written with a value that has a property. -/
def Reg.satisfies {α : Type} (r : Reg α) (p : α → Bool) : Bool :=
  match r with
  | .unwritten _ => false
  | .holds v => p v

/-- A table base: "always a multiple of 4096 and below 2^56" (R34). -/
def tableBase (a : Word) : Bool := decide (a.toNat % 4096 = 0) && decide (a.toNat < 2 ^ 56)

/-- What holds while a call is at level `i`: its registers are written, `i` is a level of the scheme, `vpn` holds the
segments of `VA`, the TC sample's mode is not 0, `a` is a table base; neither `PA` nor the response is written
(R33, R34, R41, R134). -/
def Block.walking (b : Block) (i : Nat) : Bool :=
  (b.scheme.satisfies fun scheme =>
    decide (i < (schemeRow scheme).levels)
      && (b.va.satisfies fun va => decide (b.vpn = .holds (vpnSegments (schemeRow scheme) va))))
    && (b.tc.satisfies fun tc => tcMode tc != 0#4)
    && b.a.satisfies tableBase
    && !b.pa.isWritten
    && !b.response.isWritten

/-- No register of the block is written: the spec's "no value" (R40, R190). What the registers contain meanwhile does not
matter (log 1). -/
def Block.nothingWritten (b : Block) : Bool :=
  !b.scheme.isWritten && !b.tc.isWritten && !b.va.isWritten && !b.pte.isWritten && !b.pa.isWritten && !b.vpn.isWritten
    && !b.a.isWritten && !b.response.isWritten

/-- Which registers hold what, for each state of the sequencer (R35, R37, R38, R40, R41, R150, R190). -/
def Block.coherent (b : Block) : Bool :=
  match b.ctrl with
  | .idle => b.nothingWritten
  | .walkingLevel i => b.walking i
  | .leafFound i => b.walking i && b.pte.satisfies fun pte => decide (pteType pte = .leaf)
  | .done =>
    (b.pa.satisfies fun pa => decide (pa.toNat < 2 ^ 56)
      && (b.pte.satisfies fun pte => decide (b.response = .holds (.ok pa (pteRights pte)))))
  | .faulted f => decide (b.response = .holds (.fault f.toTranslationFault))
  | .translationDisabled => decide (b.response = .holds (.fault .translationDisabled))

/-- The invariant of the machine: every instance is coherent and memory is in canonical form. -/
def State.coherent (s : State) : Bool :=
  s.cur.block.coherent && s.parked.all (fun x => x.block.coherent) && s.accessor.mem.wf

/-- Two registers with the same mark, and with the same value where it was written (R41). -/
def Reg.agrees {α : Type} : Reg α → Reg α → Prop
  | .unwritten _, .unwritten _ => True
  | .holds v, .holds w => v = w
  | .unwritten _, .holds _ => False
  | .holds _, .unwritten _ => False

/-- Two blocks that differ at most in what their unwritten registers contain (R41). -/
def Block.agrees (b c : Block) : Prop :=
  b.ctrl = c.ctrl ∧ b.scheme.agrees c.scheme ∧ b.tc.agrees c.tc ∧ b.va.agrees c.va ∧ b.pte.agrees c.pte
    ∧ b.pa.agrees c.pa ∧ b.vpn.agrees c.vpn ∧ b.a.agrees c.a ∧ b.response.agrees c.response

/-- The next step does not stop with a fault (R110). -/
def State.safe (s : State) : Prop := ∀ f, step s ≠ .fault f

/-- It is the selected instance's turn (R132): no turn of the environment comes first (log 4). -/
def State.blockTurn (s : State) : Prop := s.schedule = [] ∨ ∃ rest, s.schedule = .block :: rest

/-- The state as the block's own step sees it, its turn taken. -/
def State.turnTaken (s : State) : State := { s with schedule := s.schedule.tail }

/-- The selected instance is about to take a `WalkingLevel(i)` step under a scheme, with the table at `base`, the segment
`vpn[i] = segment`, and an accessor that answers (R135, R136). -/
def State.atLevel (s : State) (scheme : Scheme) (i : Nat) (base : Word) (segment : BitVec 9) : Prop :=
  s.blockTurn ∧ s.cur.block.ctrl = .walkingLevel i ∧ s.cur.block.scheme = .holds scheme ∧ s.cur.block.a = .holds base
    ∧ (∃ vpn, s.cur.block.vpn = .holds vpn ∧ vpn[i]? = some segment) ∧ s.accessor.stalled = false

/-- The PTE's address in the table at `base`: `a + vpn[i] * 8` (R136). -/
def entryAddress (base : Word) (segment : BitVec 9) : Word := BitVec.ofNat 64 (base.toNat + segment.toNat * 8)

/-- The state after a level's step that issued one 8-byte read at `addr` and left the block `b`: everything else is as
before, but that the accessor has answered once more. -/
def State.levelTaken (s : State) (addr : Word) (b : Block) : State :=
  { s.turnTaken with
    cur := { s.cur with block := b, reads := s.cur.reads ++ [⟨addr, 8⟩] }
    accessor := { s.accessor with forced := none, draws := s.accessor.draws + 1 } }

/-- The selected instance is about to take a `LeafFound(i)` step under a scheme, with the leaf `pte` and the virtual
address `va` (R145). -/
def State.atLeaf (s : State) (scheme : Scheme) (i : Nat) (pte va : Word) : Prop :=
  s.blockTurn ∧ s.cur.block.ctrl = .leafFound i ∧ s.cur.block.scheme = .holds scheme ∧ i < refLevels scheme
    ∧ s.cur.block.pte = .holds pte ∧ s.cur.block.va = .holds va

/-- Which states of the sequencer may follow which in one step of the block, by the table of R132; an idle block may also
stay idle, and a level whose read is not answered stays (log 4, log 5). -/
def Ctrl.mayFollow : Ctrl → Ctrl → Prop
  | .idle, .idle => True
  | .idle, .translationDisabled => True
  | .idle, .walkingLevel i => i = 2 ∨ i = 3
  | .walkingLevel i, .walkingLevel j => j + 1 = i ∨ j = i
  | .walkingLevel i, .leafFound j => j = i
  | .walkingLevel _, .faulted .invalidEntry => True
  | .walkingLevel _, .faulted (.accessError _) => True
  | .leafFound _, .done => True
  | .leafFound i, .faulted .misalignedSuperpage => 0 < i
  | .done, .idle => True
  | .faulted _, .idle => True
  | .translationDisabled, .idle => True
  | _, _ => False

/-- Two PTE words agree on every bit that is decoded: bits [0,4) and [10,54) (R80). -/
def samePteBits (p q : Word) : Prop :=
  ∀ k, k < 4 ∨ (10 ≤ k ∧ k < 54) → p.getLsbD k = q.getLsbD k

/-- Two virtual addresses agree on the bits [0, vaWidth) of a scheme (R32, R80). -/
def sameVaBits (scheme : Scheme) (v w : Word) : Prop :=
  ∀ k, k < 12 + 9 * refLevels scheme → v.getLsbD k = w.getLsbD k

end Sys2Proof.Machine
end

