-- ==== Sys2Proof/Certificates/Slice0/Obligations.lean ====
section
/-! DEFINITION. The statements for the provers, from the numbered rules of spec/. "Decision Dk" is a row of
spec/92_eei_decisions.md, the spec's own choice; "log n" is notes/assumptions/n.md, the model's. -/

open Sys2Proof Sys2Proof.Machine

/-! ## The Bitfield Register -/

/-- R100: BF_GET gives bits [bitIndex, bitIndex+size) right-aligned, or RangeViolation past bit 64; nothing else of
the machine changes. Size 0: decision D6. Delivery in one step: the model's choice, log 10. -/
def Obligations.BfGetReturnsTheRange : Prop :=
  ∀ (word : Word) (bitIndex size : Nat) (s : State), s.cur.block.ctrl = .idle →
    exec (.bfGet word bitIndex size) s = .next { s with cur := { s.cur with delivered := s.cur.delivered ++
      [if 64 < bitIndex + size then .rangeViolation
       else .word (BitVec.ofNat 64 (word.toNat / 2 ^ bitIndex % 2 ^ size))] } }

/-- R102: BF_SET gives the word with the bits of the range taken from the value and every other bit unchanged, or
RangeViolation past bit 64; nothing else of the machine changes. Size 0: decision D6. Delivery in one step: the
model's choice, log 10. -/
def Obligations.BfSetReplacesTheRange : Prop :=
  ∀ (word : Word) (bitIndex size value : Nat) (s : State), s.cur.block.ctrl = .idle →
    ∃ r, exec (.bfSet word bitIndex size value) s
        = .next { s with cur := { s.cur with delivered := s.cur.delivered ++ [r] } }
      ∧ (64 < bitIndex + size → r = .rangeViolation)
      ∧ (bitIndex + size ≤ 64 → ∃ new : Word, r = .word new ∧ ∀ k, k < 64 →
          new.getLsbD k = if bitIndex ≤ k ∧ k < bitIndex + size then value.testBit (k - bitIndex) else word.getLsbD k)

/-- R103: the round-trip law of BF_GET and BF_SET. -/
def Obligations.BitfieldRoundTrip : Prop :=
  ∀ (v : Word) (bitIndex size r : Nat), bitIndex + size ≤ 64 →
    ∃ v', Machine.bfSet v bitIndex size r = some v'
      ∧ Machine.bfGet v' bitIndex size = some (BitVec.ofNat 64 (r % 2 ^ size))
      ∧ ∀ k, k < 64 → ¬ (bitIndex ≤ k ∧ k < bitIndex + size) → Machine.bfGet v' k 1 = Machine.bfGet v k 1

/-- R104: BF_VALUE gives the whole word, and equals BF_GET of all 64 bits; nothing else of the machine changes.
Delivery in one step: the model's choice, log 10. -/
def Obligations.BfValueIsTheWholeWord : Prop :=
  ∀ (word : Word) (s : State), s.cur.block.ctrl = .idle →
    exec (.bfValue word) s = .next { s with cur := { s.cur with delivered := s.cur.delivered ++ [.word word] } }
      ∧ exec (.bfGet word 0 64) s = exec (.bfValue word) s

/-- R110, R170, R175: of all operations, only BF_GET and BF_SET report RangeViolation, and exactly when the range
passes bit 64. The bound: decision D7. That no other operation reports it: derived in R110. Delivery in one step: the
model's choice, log 10. -/
def Obligations.RangeViolationOnlyFromGetAndSet : Prop :=
  ∀ (i : Instr) (s t : State), exec i s = .next t →
    (t.cur.delivered = s.cur.delivered ++ [.rangeViolation] ↔
      match i with
      | .bfGet _ bitIndex size => 64 < bitIndex + size
      | .bfSet _ bitIndex size _ => 64 < bitIndex + size
      | _ => False)

/-! ## The decoders and the table -/

/-- R106: TC_DECODE (op 0x10) gives mode [60,64), addressSpaceId [44,60) and rootPPN [0,44), for every value; nothing
else of the machine changes. The op code: decision D12. Delivery in one step: the model's choice, log 10. -/
def Obligations.TcDecodeExtractsTheFields : Prop :=
  ∀ (raw : Word) (s : State), encode (.tcDecode raw) = ⟨0x10#8, [.u64 raw]⟩ ∧
    (s.cur.block.ctrl = .idle →
      exec (.tcDecode raw) s = .next { s with cur := { s.cur with delivered := s.cur.delivered ++
        [.tcFields { mode := BitVec.ofNat 4 (raw.toNat / 2 ^ 60)
                     addressSpaceId := BitVec.ofNat 16 (raw.toNat / 2 ^ 44 % 2 ^ 16)
                     rootPPN := BitVec.ofNat 44 (raw.toNat % 2 ^ 44) }] } })

/-- R108: PTE_DECODE (op 0x11) assembles the eight bytes little-endian and gives V, R, W, X (bits 0-3), ppn [10,54)
and the whole word, for every value; nothing else of the machine changes. The op code: decision D12. Delivery in one
step: the model's choice, log 10. -/
def Obligations.PteDecodeExtractsTheFields : Prop :=
  ∀ (b0 b1 b2 b3 b4 b5 b6 b7 : Byte) (s : State),
    let word := refLe ⟨b0, b1, b2, b3, b4, b5, b6, b7⟩
    encode (.pteDecode b0 b1 b2 b3 b4 b5 b6 b7) =
        ⟨0x11#8, [.byte b0, .byte b1, .byte b2, .byte b3, .byte b4, .byte b5, .byte b6, .byte b7]⟩ ∧
      (s.cur.block.ctrl = .idle →
        exec (.pteDecode b0 b1 b2 b3 b4 b5 b6 b7) s = .next { s with cur := { s.cur with delivered := s.cur.delivered ++
          [.pteFields { valid := word.testBit 0
                        read := word.testBit 1
                        write := word.testBit 2
                        execute := word.testBit 3
                        ppn := BitVec.ofNat 44 (word / 2 ^ 10 % 2 ^ 44)
                        word := BitVec.ofNat 64 word }] } })

/-- R109, R30: SCHEME_LOOKUP gives the two rows of the table, and refuses every other selector (R78), in the decoder
and in the operation; nothing else of the machine changes. Selector values and refusal: decision D12. Delivery in one
step: the model's choice, log 10. -/
def Obligations.SchemeLookupGivesTheRow : Prop :=
  (∀ s : State, s.cur.block.ctrl = .idle →
    exec (.schemeLookup 0) s = .next { s with cur := { s.cur with delivered := s.cur.delivered ++
      [.schemeRow { entrySize := 8, levels := 3, pageSize := 4096, vpnWidth := 9, vaWidth := 39
                    ppnSegmentWidths := [9, 9, 26] }] } }
    ∧ exec (.schemeLookup 1) s = .next { s with cur := { s.cur with delivered := s.cur.delivered ++
      [.schemeRow { entrySize := 8, levels := 4, pageSize := 4096, vpnWidth := 9, vaWidth := 48
                    ppnSegmentWidths := [9, 9, 9, 17] }] } })
  ∧ ∀ n, 2 ≤ n → decode ⟨0x12#8, [.selector n]⟩ = .error (.unassignedSelector n)
      ∧ ∀ s : State, exec (.schemeLookup n) s = .refused (.badSelector n)

/-- R31: both rows satisfy the invariants (a) to (d), and the segments below level i are `i * vpnWidth` bits. -/
def Obligations.SchemeRowsSatisfyTheInvariants : Prop :=
  ∀ scheme : Scheme,
    let c := schemeRow scheme
    c.ppnSegmentWidths.length = c.levels ∧ c.ppnSegmentWidths.sum = 44 ∧ 12 + c.levels * c.vpnWidth = c.vaWidth
      ∧ (∀ k, k + 1 < c.levels → c.ppnSegmentWidths[k]? = some c.vpnWidth)
      ∧ (∀ i, i < c.levels → (c.ppnSegmentWidths.take i).sum = i * c.vpnWidth)

/-- R73: the type of an entry, from its bits V, R, W, X. -/
def Obligations.PteTypeFromTheFlagBits : Prop :=
  ∀ pte : Word,
    (pteType pte = .invalid ↔ pte.getLsbD 0 = false)
      ∧ (pteType pte = .reserved ↔ pte.getLsbD 0 = true ∧ pte.getLsbD 1 = false ∧ pte.getLsbD 2 = true)
      ∧ (pteType pte = .pointer ↔
          pte.getLsbD 0 = true ∧ pte.getLsbD 1 = false ∧ pte.getLsbD 2 = false ∧ pte.getLsbD 3 = false)
      ∧ (pteType pte = .leaf ↔ pte.getLsbD 0 = true ∧ ¬ (pte.getLsbD 1 = false ∧ pte.getLsbD 2 = true)
          ∧ (pte.getLsbD 1 = true ∨ pte.getLsbD 3 = true))

/-! ## Encoding -/

/-- R76: for every well-formed instruction, decoding its descriptor gives it back. The op codes: decision D12. -/
def Obligations.DecodeOfEncode : Prop :=
  ∀ i : Instr, i.wf = true → decode (encode i) = .ok i

/-- R76, R78: a descriptor that decodes is the descriptor of the instruction it decodes to, and that is well-formed:
no op code stands for two operations and an operation has one length. The op codes: decision D12. -/
def Obligations.EncodeOfDecode : Prop :=
  ∀ (d : Descriptor) (i : Instr), decode d = .ok i → encode i = d ∧ i.wf = true

/-- R76: the eight op codes, written out, stand for the operations of the table. The op codes: decision D12. -/
def Obligations.OpCodesStandForTheirOperations : Prop :=
  decode ⟨0x01#8, [.u64 0xFEDCBA9876543210#64, .nat 4, .nat 8]⟩ = .ok (.bfGet 0xFEDCBA9876543210#64 4 8)
    ∧ decode ⟨0x02#8, [.u64 0#64, .nat 10, .nat 44, .nat 0x12345]⟩ = .ok (.bfSet 0#64 10 44 0x12345)
    ∧ decode ⟨0x03#8, [.u64 0x123456789ABCDEF0#64]⟩ = .ok (.bfValue 0x123456789ABCDEF0#64)
    ∧ decode ⟨0x10#8, [.u64 0x9000000000080000#64]⟩ = .ok (.tcDecode 0x9000000000080000#64)
    ∧ decode ⟨0x11#8, [.byte 0xCF#8, .byte 0x04#8, .byte 1#8, .byte 0x20#8, .byte 2#8, .byte 3#8, .byte 4#8, .byte 5#8]⟩
        = .ok (.pteDecode 0xCF#8 0x04#8 1#8 0x20#8 2#8 3#8 4#8 5#8)
    ∧ decode ⟨0x12#8, [.selector 1]⟩ = .ok (.schemeLookup 1)
    ∧ decode ⟨0x20#8, [.u64 0xABC#64]⟩ = .ok (.translateSv39 0xABC#64)
    ∧ decode ⟨0x21#8, [.u64 0x8123456789#64]⟩ = .ok (.translateSv48 0x8123456789#64)

/-- R78: a descriptor with an unassigned code is refused, whatever its operands, and the step that would take it gives
no state. Refusal: decision D12; that it stops the machine: the model's choice, log 17. -/
def Obligations.UnassignedCodesAreRefused : Prop :=
  ∀ (op : Byte) (xs : List Operand),
    op ∉ [0x01#8, 0x02#8, 0x03#8, 0x10#8, 0x11#8, 0x12#8, 0x20#8, 0x21#8] →
      decode ⟨op, xs⟩ = .error (.unassignedOp op)
      ∧ ∀ (s : State) (rest : List Descriptor), s.blockTurn → s.cur.block.ctrl = .idle →
          s.cur.requests = ⟨op, xs⟩ :: rest → step s = .refused (.badDescriptor (.unassignedOp op))

/-! ## The step and the request channel -/

/-- R131: when the block is Idle and the oldest request decodes to an instruction, the step is exec of it, on the
state with that request (and the block's turn) taken. The queue of descriptors: the model's choice, log 5. -/
def Obligations.StepRunsTheDecodedInstruction : Prop :=
  ∀ (s : State) (d : Descriptor) (rest : List Descriptor) (i : Instr), s.blockTurn → s.cur.block.ctrl = .idle →
    s.cur.requests = d :: rest → decode d = .ok i →
      step s = exec i { s.turnTaken with cur := { s.cur with requests := rest } }

/-- R131, R179 (log 10: the refusal is the model's): "The block accepts a new request only in Idle": out of Idle every
well-formed operation is refused, and a step leaves the waiting requests where they are. -/
def Obligations.RequestsWaitUntilIdle : Prop :=
  ∀ s : State, s.cur.block.ctrl ≠ .idle →
    (∀ i : Instr, i.wf = true → exec i s = .refused .busy)
      ∧ ∀ t, s.blockTurn → step s = .next t → t.cur.requests = s.cur.requests

/-- R191 (log 5: the waiting step is the model's): an idle block with no request starts nothing. -/
def Obligations.IdleBlockWaitsForARequest : Prop :=
  ∀ s : State, s.schedule = [] → s.cur.block.ctrl = .idle → s.cur.requests = [] → step s = .next s

/-- R20, R100-R109, R133 (frame of every operation): exec leaves memory, the accessor, the TC register, the other
instances, the waiting requests, the reads and the schedule as they were; a datapath operation leaves every register
of the block, and delivers one result; a TRANSLATE leaves PTE and PA and delivers nothing yet. One result delivered in
one step: the model's choice, log 10. That a TRANSLATE is only the start of its call: read by inference, log 13. -/
def Obligations.OperationsLeaveTheRestUnchanged : Prop :=
  ∀ (i : Instr) (s t : State), exec i s = .next t →
    (∀ addr, t.accessor.mem.read addr = s.accessor.mem.read addr) ∧ t.accessor = s.accessor
      ∧ t.tcRegister = s.tcRegister ∧ t.parked = s.parked ∧ t.schedule = s.schedule
      ∧ t.cur.requests = s.cur.requests ∧ t.cur.reads = s.cur.reads
      ∧ ((∀ scheme va, i ≠ translateInstr scheme va) →
          t.cur.block = s.cur.block ∧ t.cur.samples = s.cur.samples
            ∧ ∃ r, t.cur.delivered = s.cur.delivered ++ [r])
      ∧ (∀ scheme va, i = translateInstr scheme va →
          t.cur.block.pte = s.cur.block.pte ∧ t.cur.block.pa = s.cur.block.pa
            ∧ t.cur.delivered = s.cur.delivered)

/-! ## Call start -/

/-- R133, R174: with TC mode 0, TRANSLATE.SV39 and TRANSLATE.SV48 sample the TC register once and end in
TranslationDisabled, with no read; no other register changes. One sampling: decision D4. The registers left unwritten:
read by inference, log 16. The scheme register: log 8. -/
def Obligations.ModeZeroDisablesTranslation : Prop :=
  ∀ (scheme : Scheme) (va : Word) (s : State), s.cur.block.ctrl = .idle → s.tcRegister.toNat / 2 ^ 60 = 0 →
    exec (translateInstr scheme va) s = .next { s with cur := { s.cur with
      samples := s.cur.samples ++ [s.tcRegister]
      block := { s.cur.block with
        ctrl := .translationDisabled
        scheme := .holds scheme
        tc := .holds s.tcRegister
        response := .holds (.fault .translationDisabled) } } }

/-- R134, R23: with any other mode, TRANSLATE.SV39 and TRANSLATE.SV48 sample the TC register once and start a walk
with the scheme asked for: VA, vpn, a and the level are written; no read yet, and no other register changes. Any
nonzero mode: decision D3. The scheme register: log 8. -/
def Obligations.NonzeroModeStartsTheWalk : Prop :=
  ∀ (scheme : Scheme) (va : Word) (s : State), s.cur.block.ctrl = .idle → s.tcRegister.toNat / 2 ^ 60 ≠ 0 →
    exec (translateInstr scheme va) s = .next { s with cur := { s.cur with
      samples := s.cur.samples ++ [s.tcRegister]
      block := { s.cur.block with
        ctrl := .walkingLevel (refLevels scheme - 1)
        scheme := .holds scheme
        tc := .holds s.tcRegister
        va := .holds va
        vpn := .holds ((List.range (refLevels scheme)).map fun k => BitVec.ofNat 9 (va.toNat / 2 ^ (12 + 9 * k) % 512))
        a := .holds (BitVec.ofNat 64 (s.tcRegister.toNat % 2 ^ 44 * 4096)) } } }

/-- R21: the TC register is sampled once per call, at its start: a step of the block from Idle to another state appends
exactly the TC register's value to the samples and keeps it in TC, and every other step of the block samples nothing.
Decision D4. The record of samples: the model's own, log 7. -/
def Obligations.TcIsSampledOnlyAtCallStart : Prop :=
  ∀ s t : State, s.blockTurn → step s = .next t →
    (s.cur.block.ctrl = .idle ∧ t.cur.block.ctrl ≠ .idle →
      t.cur.samples = s.cur.samples ++ [s.tcRegister] ∧ t.cur.block.tc = .holds s.tcRegister)
    ∧ (¬ (s.cur.block.ctrl = .idle ∧ t.cur.block.ctrl ≠ .idle) → t.cur.samples = s.cur.samples)

/-- R195: a change of the TC register during a call is not seen by that call. Decision D4. -/
def Obligations.TcChangeDuringACallIsNotSeen : Prop :=
  ∀ (s t : State) (w : Word), s.blockTurn → s.cur.block.ctrl ≠ .idle → step s = .next t →
    step { s with tcRegister := w } = .next { t with tcRegister := w }

/-- R23, R24, R80: of the TC value only the root PPN and whether the mode is 0 matter to a call. Decision D3. -/
def Obligations.OnlyRootPpnOfTheTcMatters : Prop :=
  ∀ (b : Block) (scheme : Scheme) (va tc tc' : Word), tc.toNat / 2 ^ 60 ≠ 0 → tc'.toNat / 2 ^ 60 ≠ 0 →
    tc.toNat % 2 ^ 44 = tc'.toNat % 2 ^ 44 →
      b.startCall scheme va tc = { b.startCall scheme va tc' with tc := .holds tc }

/-! ## One level of the walk -/

/-- R137: a level reads 8 bytes at its PTE address, once; an access error ends the call, passed on unchanged, and no PTE is
examined; otherwise PTE takes the little-endian word of the bytes. -/
def Obligations.LevelReadsOnePteOrEndsInAccessError : Prop :=
  ∀ (s : State) (scheme : Scheme) (i : Nat) (base : Word) (segment : BitVec 9), s.atLevel scheme i base segment →
    (∀ e, s.accessor.answer (entryAddress base segment) = .error e →
      step s = .next (s.levelTaken (entryAddress base segment)
        { s.cur.block with
          ctrl := .faulted (.accessError e)
          response := .holds (.fault (.accessError e)) }))
    ∧ ∀ b, s.accessor.answer (entryAddress base segment) = .bytes b →
        ∃ block, step s = .next (s.levelTaken (entryAddress base segment) block)
          ∧ block.pte = .holds (BitVec.ofNat 64 (refLe b))

/-- R138: a PTE with V = 0, or with R = 0 and W = 1, ends the call with InvalidEntry, at every level. -/
def Obligations.InvalidPteEndsTheCall : Prop :=
  ∀ (s : State) (scheme : Scheme) (i : Nat) (base : Word) (segment : BitVec 9) (b : PteBytes),
    s.atLevel scheme i base segment → s.accessor.answer (entryAddress base segment) = .bytes b →
    ((refLe b).testBit 0 = false ∨ ((refLe b).testBit 1 = false ∧ (refLe b).testBit 2 = true)) →
      step s = .next (s.levelTaken (entryAddress base segment)
        { s.cur.block with
          pte := .holds (BitVec.ofNat 64 (refLe b))
          ctrl := .faulted .invalidEntry
          response := .holds (.fault .invalidEntry) })

/-- R140: a PTE that passes the validity check with R = 1 or X = 1 is a leaf: the level is the stopping level. -/
def Obligations.LeafPteStopsTheWalk : Prop :=
  ∀ (s : State) (scheme : Scheme) (i : Nat) (base : Word) (segment : BitVec 9) (b : PteBytes),
    s.atLevel scheme i base segment → s.accessor.answer (entryAddress base segment) = .bytes b →
    (refLe b).testBit 0 = true → ¬ ((refLe b).testBit 1 = false ∧ (refLe b).testBit 2 = true) →
    ((refLe b).testBit 1 = true ∨ (refLe b).testBit 3 = true) →
      step s = .next (s.levelTaken (entryAddress base segment)
        { s.cur.block with
          pte := .holds (BitVec.ofNat 64 (refLe b))
          ctrl := .leafFound i })

/-- R142, R143: a pointer leads to the next lower level, with its whole 44-bit PPN times 4096 as the table's base; at level
0 it exhausts the walk: InvalidEntry, with no further read. -/
def Obligations.PointerPteDescendsOrExhaustsTheWalk : Prop :=
  ∀ (s : State) (scheme : Scheme) (i : Nat) (base : Word) (segment : BitVec 9) (b : PteBytes),
    s.atLevel scheme i base segment → s.accessor.answer (entryAddress base segment) = .bytes b →
    (refLe b).testBit 0 = true → (refLe b).testBit 1 = false → (refLe b).testBit 2 = false →
    (refLe b).testBit 3 = false →
      (i = 0 → step s = .next (s.levelTaken (entryAddress base segment)
        { s.cur.block with
          pte := .holds (BitVec.ofNat 64 (refLe b))
          ctrl := .faulted .invalidEntry
          response := .holds (.fault .invalidEntry) }))
      ∧ ∀ below, i = below + 1 → step s = .next (s.levelTaken (entryAddress base segment)
        { s.cur.block with
          pte := .holds (BitVec.ofNat 64 (refLe b))
          a := .holds (BitVec.ofNat 64 (refLe b / 2 ^ 10 % 2 ^ 44 * 4096))
          ctrl := .walkingLevel below })

/-- R171: from a coherent state, a step of the block raises InvalidEntry exactly in a WalkingLevel(i) step whose PTE (a) has
V = 0, or (b) has R = 0 and W = 1, or (c) is a pointer at level 0. -/
def Obligations.InvalidEntryHasThreeCauses : Prop :=
  ∀ s t : State, s.coherent = true → s.blockTurn → step s = .next t →
    (t.cur.block.ctrl = .faulted .invalidEntry ↔
      ∃ (scheme : Scheme) (i : Nat) (base : Word) (segment : BitVec 9) (b : PteBytes),
        s.atLevel scheme i base segment ∧ s.accessor.answer (entryAddress base segment) = .bytes b
        ∧ ((refLe b).testBit 0 = false
          ∨ ((refLe b).testBit 1 = false ∧ (refLe b).testBit 2 = true)
          ∨ (i = 0 ∧ (refLe b).testBit 0 = true ∧ (refLe b).testBit 1 = false ∧ (refLe b).testBit 2 = false
              ∧ (refLe b).testBit 3 = false)))

/-- R172: from a coherent state, a step of the block raises MisalignedSuperpage exactly in a LeafFound(i) step with i > 0
and a nonzero bit in PTE bits [10, 10+9i). -/
def Obligations.MisalignedSuperpageHasOneCause : Prop :=
  ∀ s t : State, s.coherent = true → s.blockTurn → step s = .next t →
    (t.cur.block.ctrl = .faulted .misalignedSuperpage ↔
      ∃ (scheme : Scheme) (i : Nat) (pte va : Word), s.atLeaf scheme i pte va ∧ 0 < i
        ∧ pte.toNat / 2 ^ 10 % 2 ^ (9 * i) ≠ 0)

/-- R173: from a coherent state, a step of the block raises AccessError(e) exactly in a WalkingLevel(i) step, at any level,
whose read the accessor fails with e; the response register then holds that e unchanged. -/
def Obligations.AccessErrorHasOneCause : Prop :=
  ∀ (s t : State) (e : AccessErr), s.coherent = true → s.blockTurn → step s = .next t →
    (t.cur.block.ctrl = .faulted (.accessError e) ↔
      ∃ (scheme : Scheme) (i : Nat) (base : Word) (segment : BitVec 9),
        s.atLevel scheme i base segment ∧ s.accessor.answer (entryAddress base segment) = .error e)
    ∧ (t.cur.block.ctrl = .faulted (.accessError e) → t.cur.block.response = .holds (.fault (.accessError e)))

/-- R174: a step of the block ends in TranslationDisabled exactly at a call start with TC mode 0, and the outcome is in the
response register like the three faults. -/
def Obligations.TranslationDisabledHasOneCause : Prop :=
  ∀ s t : State, s.blockTurn → step s = .next t →
    (t.cur.block.ctrl = .translationDisabled ↔
      s.cur.block.ctrl = .idle ∧ s.tcRegister.toNat / 2 ^ 60 = 0
        ∧ ∃ (scheme : Scheme) (va : Word) (rest : List Descriptor),
            s.cur.requests = encode (translateInstr scheme va) :: rest)
    ∧ (t.cur.block.ctrl = .translationDisabled → t.cur.block.response = .holds (.fault .translationDisabled))

/-- R180, D15: while the accessor does not answer, the call has no further step: it is stuck, not faulted. The
unchanged state as the form of stuck: the model's choice, log 4. -/
def Obligations.UnansweredReadIsStuck : Prop :=
  ∀ (s : State) (i : Nat), s.schedule = [] → s.cur.block.ctrl = .walkingLevel i → s.accessor.stalled = true →
    step s = .next s

/-! ## The leaf -/

/-- R145: a leaf above level 0 whose PPN has a nonzero bit below `9 * i` is MisalignedSuperpage, and nothing is assembled; at
level 0 there is no check. -/
def Obligations.MisalignedSuperpageIsReported : Prop :=
  ∀ (s : State) (scheme : Scheme) (i : Nat) (pte va : Word), s.atLeaf scheme i pte va →
    (0 < i → pte.toNat / 2 ^ 10 % 2 ^ (9 * i) ≠ 0 →
      step s = .next { s.turnTaken with cur := { s.cur with block :=
        { s.cur.block with
          ctrl := .faulted .misalignedSuperpage
          response := .holds (.fault .misalignedSuperpage) } } })
    ∧ (i = 0 → ∃ t, step s = .next t ∧ t.cur.block.ctrl = .done)

/-- R146 to R150: any other leaf gives Ok, with the address `(ppn << 12) | (va & ones(12 + 9i))` and the leaf's
rights, none of which is enforced (R151). PA bits [56,64): decision D5. -/
def Obligations.AlignedLeafGivesTheAddress : Prop :=
  ∀ (s : State) (scheme : Scheme) (i : Nat) (pte va : Word), s.atLeaf scheme i pte va →
    pte.toNat / 2 ^ 10 % 2 ^ (9 * i) = 0 →
      let pa : Word := BitVec.ofNat 64 (pte.toNat / 2 ^ 10 % 2 ^ 44 * 4096 + va.toNat % 2 ^ (12 + 9 * i))
      step s = .next { s.turnTaken with cur := { s.cur with block :=
        { s.cur.block with
          ctrl := .done
          pa := .holds pa
          response := .holds (.ok pa ⟨pte.getLsbD 1, pte.getLsbD 2, pte.getLsbD 3⟩) } } }

/-- R75, R146-R149: the three copied ranges tile the address: bits [0, 12+9i) from the virtual address, [12+9i, 56)
from the PTE's PPN at the corresponding offset, zero above; no bit range fails (R110). Zero above: decision D5. -/
def Obligations.AssembledRangesTileTheAddress : Prop :=
  ∀ (scheme : Scheme) (i : Nat) (va pte : Word), i < refLevels scheme →
    ∃ pa : Word, assemble (schemeRow scheme) i va pte = .ok pa ∧ ∀ k, k < 64 →
      pa.getLsbD k = if k < 12 + 9 * i then va.getLsbD k else if k < 56 then pte.getLsbD (k - 2) else false

/-- R80: the undecoded PTE bits and the virtual address's bits from vaWidth up take part in no check and no result.
Decision D24. -/
def Obligations.IgnoredBitsDoNotMatter : Prop :=
  ∀ (scheme : Scheme) (i : Nat) (pte pte' va va' : Word), i < refLevels scheme → samePteBits pte pte' →
    sameVaBits scheme va va' →
      (∀ b : Block, b.examine (schemeRow scheme) i pte = b.examine (schemeRow scheme) i pte')
        ∧ superpageAligned (schemeRow scheme) i pte = superpageAligned (schemeRow scheme) i pte'
        ∧ assemble (schemeRow scheme) i va pte = assemble (schemeRow scheme) i va' pte'
        ∧ pteRights pte = pteRights pte'
        ∧ vpnSegments (schemeRow scheme) va = vpnSegments (schemeRow scheme) va'

/-! ## Reporting, and reset -/

/-- R131, R178, R190: in a terminal state the response is delivered, once, and the block returns to Idle with no
register written; nothing else changes. Decision D14; log 7; what they contain then: the model's choice, log 1. -/
def Obligations.ResponseIsDeliveredAndTheBlockIsIdle : Prop :=
  ∀ (s : State) (r : Response), s.blockTurn → s.cur.block.ctrl.terminal = true → s.cur.block.response = .holds r →
    step s = .next { s.turnTaken with cur := { s.cur with
      block := Block.reset
      delivered := s.cur.delivered ++ [.translation r] } }

/-- R40, R190: after reset the sequencer is Idle and no register has been written. Decision D14. The scheme register: log 8.
(What an unwritten register contains is the model's, log 1: nothing is said of it here.) -/
def Obligations.ResetLeavesNothingWritten : Prop :=
  State.reset.cur.block.ctrl = .idle ∧ State.reset.cur.block.tc.isWritten = false
    ∧ State.reset.cur.block.va.isWritten = false ∧ State.reset.cur.block.pte.isWritten = false
    ∧ State.reset.cur.block.pa.isWritten = false ∧ State.reset.cur.block.vpn.isWritten = false
    ∧ State.reset.cur.block.a.isWritten = false ∧ State.reset.cur.block.scheme.isWritten = false
    ∧ State.reset.cur.block.response.isWritten = false
    ∧ State.reset.cur.requests = [] ∧ State.reset.cur.delivered = []

/-- R193: reset during a call abandons it: no response, Idle, no register written, and nothing outside the block
changes. Decision D14. Which instance is reset: the model's choice, log 14. -/
def Obligations.ResetAbandonsTheCall : Prop :=
  ∀ (s : State) (rest : List Turn), s.schedule = .reset :: rest →
    step s = .next { s with schedule := rest, cur := { s.cur with block := Block.reset } }

/-- R195, R197 (log 4): a turn of the environment other than reset and selection leaves the selected instance's registers,
sequencer, responses, reads and samples as they are. -/
def Obligations.EnvironmentTurnsLeaveTheCallAlone : Prop :=
  ∀ (s : State) (turn : Turn) (rest : List Turn), s.schedule = turn :: rest → turn ≠ .block → turn ≠ .reset →
    (∀ k, turn ≠ .select k) →
      ∃ t, step s = .next t ∧ t.cur.block = s.cur.block ∧ t.cur.delivered = s.cur.delivered
        ∧ t.cur.reads = s.cur.reads ∧ t.cur.samples = s.cur.samples ∧ t.schedule = rest

/-! ## The whole machine -/

/-- R132: the sequencer moves only by the transitions of the table. -/
def Obligations.SequencerMovesOnlyByTheTable : Prop :=
  ∀ s t : State, s.blockTurn → step s = .next t → s.cur.block.ctrl.mayFollow t.cur.block.ctrl

/-- R55, R178, R42: a step of the block writes no memory, not the TC register, and nothing of another instance. -/
def Obligations.TheBlockWritesNothingOutside : Prop :=
  ∀ s t : State, s.blockTurn → step s = .next t →
    (∀ addr, t.accessor.mem.read addr = s.accessor.mem.read addr) ∧ t.accessor.mem = s.accessor.mem
      ∧ t.accessor.stalled = s.accessor.stalled ∧ t.tcRegister = s.tcRegister ∧ t.parked = s.parked
      ∧ t.schedule = s.schedule.tail

/-- R55, R56, R57, R62: from a coherent state a step of the block issues one read at most, of 8 bytes, at a multiple of 8
below 2^56, inside the 4096-byte table at `a`, and only in a WalkingLevel step. -/
def Obligations.ReadsAreAlignedAndInTheTable : Prop :=
  ∀ s t : State, s.coherent = true → s.blockTurn → step s = .next t →
    t.cur.reads = s.cur.reads
      ∨ ∃ (i : Nat) (base addr : Word), s.cur.block.ctrl = .walkingLevel i ∧ s.cur.block.a = .holds base
          ∧ t.cur.reads = s.cur.reads ++ [⟨addr, 8⟩] ∧ addr.toNat % 8 = 0 ∧ addr.toNat < 2 ^ 56
          ∧ base.toNat ≤ addr.toNat ∧ addr.toNat ≤ base.toNat + 4088

/-- R39, R63, R155: what earlier calls left on the channels does not change a step of the block: whatever results, reads and
samples stand in the histories, the step appends the same new ones and leaves everything else of the machine the same. The
histories: the model's own, read by inference, log 7. -/
def Obligations.EarlierCallsDoNotMatter : Prop :=
  ∀ (s t : State) (delivered : List Result) (reads : List ReadRequest) (samples : List Word), s.blockTurn →
    step s = .next t →
      ∃ (newResults : List Result) (newReads : List ReadRequest) (newSamples : List Word),
        t.cur.delivered = s.cur.delivered ++ newResults ∧ t.cur.reads = s.cur.reads ++ newReads
          ∧ t.cur.samples = s.cur.samples ++ newSamples
          ∧ step { s with cur := { s.cur with delivered := delivered, reads := reads, samples := samples } }
              = .next { t with cur := { t.cur with
                  delivered := delivered ++ newResults
                  reads := reads ++ newReads
                  samples := samples ++ newSamples } }

/-- R184, R42: instances are independent: a step of the selected one is the same whatever the others hold. The form of
several instances: the model's choice, log 11. -/
def Obligations.InstancesAreIndependent : Prop :=
  ∀ (s t : State) (others : List Agent), s.blockTurn → step s = .next t →
    step { s with parked := others } = .next { t with parked := others }

/-- R34-R41: the reset state is coherent. Decision D14. -/
def Obligations.ResetIsCoherent : Prop := State.reset.coherent = true

/-- R33-R41, R134, R143: every step, of the block and of the environment, keeps every instance coherent and memory
canonical. Decision D14. -/
def Obligations.CoherenceIsKept : Prop :=
  ∀ s t : State, s.coherent = true → step s = .next t → t.coherent = true

/-- R110: from a coherent state no bit range of a walk passes bit 64: the machine never stops with a fault. Decision D14. -/
def Obligations.CoherentStatesNeverFault : Prop :=
  ∀ s : State, s.coherent = true → s.safe

/-- R144, R202: if the accessor answers, a call at level i is over within i + 2 steps and issues i + 1 reads at most. -/
def Obligations.CallsEndInBoundedSteps : Prop :=
  ∀ (s : State) (i : Nat), s.coherent = true → s.schedule = [] → s.accessor.stalled = false →
    s.cur.block.ctrl = .walkingLevel i →
      ∃ (n : Nat) (t : State), n ≤ i + 2 ∧ core.run n s = .next t ∧ t.cur.block.ctrl.terminal = true
        ∧ t.cur.reads.length ≤ s.cur.reads.length + (i + 1)

/-- R153, R160, R161, R202: a call on an idle machine that is left alone ends within levels + 2 steps with the
response and the reads that R153 gives, the memory as it stands. (That memory stands still is the named premise
`schedule = []`.) What memory answers: decisions D8, D17 and log 3. -/
def Obligations.CallGivesTheResponseOfTheAlgorithm : Prop :=
  ∀ (scheme : Scheme) (va : Word) (s : State) (rest : List Descriptor), s.cur.block.ctrl = .idle → s.schedule = [] →
    s.accessor.stalled = false → s.cur.requests = encode (translateInstr scheme va) :: rest →
      let expected := refTranslate scheme va s.tcRegister s.accessor.undisturbed
      ∃ (n : Nat) (t : State), n ≤ refLevels scheme + 2 ∧ core.run n s = .next t
        ∧ t.cur.block.ctrl.terminal = true ∧ t.cur.block.response = .holds expected.1
        ∧ t.cur.reads = s.cur.reads ++ expected.2 ∧ t.cur.samples = s.cur.samples ++ [s.tcRegister]
        ∧ t.cur.requests = rest ∧ t.cur.delivered = s.cur.delivered ∧ t.parked = s.parked

/-- R63, R58, R155: whatever the accessor answers to each read, from one memory or not, the response delivered is that
of R153 for the request, the TC value sampled and the ordered answers; the block is then as after reset. Answers
forced by turns: the model's choice, log 4. Decision D8. -/
def Obligations.ResponseIsAFunctionOfTheAnswers : Prop :=
  ∀ (scheme : Scheme) (va : Word) (s : State) (answers : List Answer), s.cur.block = Block.reset →
    s.cur.requests = [encode (translateInstr scheme va)] → s.accessor.stalled = false →
    answers.length = refLevels scheme → s.schedule = oracleTurns answers →
      let expected := refTranslate scheme va s.tcRegister (oracle answers)
      ∃ t : State, core.run (oracleTurns answers).length s = .next t ∧ t.cur.block = Block.reset ∧ t.cur.requests = []
        ∧ t.cur.delivered = s.cur.delivered ++ [.translation expected.1]
        ∧ t.cur.reads = s.cur.reads ++ expected.2 ∧ t.accessor.mem = s.accessor.mem ∧ t.tcRegister = s.tcRegister

/-! ## Physical memory and the accessor -/

/-- R51, R53: an accessor that nothing is forced on answers a read at A with the bytes at A to A+7, or with an error
when one of them is not mapped. Decisions D17, D19; memory as a list: the model's choice, log 3. -/
def Obligations.AccessorAnswersTheBytesOfMemory : Prop :=
  ∀ (acc : Accessor) (addr : Word), acc.forced = none →
    (∀ b : PteBytes, acc.answer addr = .bytes b ↔
        acc.mem.read addr.toNat = some b.b0 ∧ acc.mem.read (addr.toNat + 1) = some b.b1
          ∧ acc.mem.read (addr.toNat + 2) = some b.b2 ∧ acc.mem.read (addr.toNat + 3) = some b.b3
          ∧ acc.mem.read (addr.toNat + 4) = some b.b4 ∧ acc.mem.read (addr.toNat + 5) = some b.b5
          ∧ acc.mem.read (addr.toNat + 6) = some b.b6 ∧ acc.mem.read (addr.toNat + 7) = some b.b7)
      ∧ ((∃ e, acc.answer addr = .error e) ↔ ∃ k, k < 8 ∧ acc.mem.read (addr.toNat + k) = none)

/-- R51, R60, R64: a byte written is what is read there afterwards, an unmapped one reads as nothing, and every other
address reads as before. Memory as a list: the model's choice, log 3. -/
def Obligations.MemoryReadsWhatWasWritten : Prop :=
  ∀ (m : Memory) (addr other : Nat) (b : Byte), m.wf = true →
    (m.write addr b).read addr = some b ∧ (m.unmap addr).read addr = none
      ∧ (other ≠ addr → (m.write addr b).read other = m.read other ∧ (m.unmap addr).read other = m.read other)

/-! ## Registers not written -/

/-- R41: no step of the block reads a register before it is written: from a coherent state, a step does the same whatever
the unwritten registers contain, and the block it leaves agrees in everything written. Decision D14; that an unwritten
register contains a value at all: the model's choice, log 1. -/
def Obligations.UnwrittenRegistersAreNotRead : Prop :=
  ∀ (s : State) (b : Block), s.coherent = true → s.blockTurn → s.cur.block.agrees b →
    (∀ t, step s = .next t → ∃ c, step (s.withBlock b) = .next (t.withBlock c) ∧ t.cur.block.agrees c)
      ∧ ∀ r, step s = .refused r → step (s.withBlock b) = .refused r
end

