-- ==== Sys2Proof/Laws/Bitfield.lean ====
section
/-! SUPPORT. What the Bitfield operations and the bit layouts are, bit by bit and as numbers. -/

namespace Sys2Proof.Machine

theorem ones_toNat (n : Nat) (h : n ≤ 64) : (ones n).toNat = 2 ^ n - 1 := by
  have h1 : 2 ^ n ≤ 2 ^ 64 := Nat.pow_le_pow_right (by decide) h
  have h2 : 0 < 2 ^ n := Nat.two_pow_pos n
  simp only [ones, BitVec.toNat_ofNat]
  exact Nat.mod_eq_of_lt (by omega)

theorem ones_getLsbD (n k : Nat) (hk : k < 64) : (ones n).getLsbD k = decide (k < n) := by
  rw [ones, BitVec.getLsbD_ofNat, Nat.testBit_two_pow_sub_one]
  simp only [hk, decide_true, Bool.true_and]

@[simp] theorem wordOfNat_getLsbD (n k : Nat) : (wordOfNat n).getLsbD k = (decide (k < 64) && n.testBit k) := by
  rw [wordOfNat, BitVec.getLsbD_ofNat]

/-- A `get`, bit by bit (R100). -/
theorem field_getLsbD (word : Word) (bitIndex size k : Nat) :
    (field word bitIndex size).getLsbD k = (decide (k < 64) && decide (k < size) && word.getLsbD (bitIndex + k)) := by
  by_cases hk : k < 64
  · rw [field, BitVec.getLsbD_and, BitVec.getLsbD_ushiftRight, ones_getLsbD _ _ hk]
    simp only [hk, decide_true, Bool.true_and, Bool.and_comm]
  · rw [BitVec.getLsbD_of_ge _ _ (Nat.le_of_not_lt hk)]
    simp only [hk, decide_false, Bool.false_and]

/-- A `get`, as a number (R100). -/
theorem field_toNat (word : Word) (bitIndex size : Nat) :
    (field word bitIndex size).toNat = word.toNat / 2 ^ bitIndex % 2 ^ size := by
  apply Nat.eq_of_testBit_eq
  intro k
  rw [Nat.testBit_mod_two_pow, Nat.testBit_div_two_pow, BitVec.testBit_toNat, field_getLsbD, BitVec.testBit_toNat]
  by_cases hk : k < 64
  · simp [hk, Nat.add_comm]
  · have : word.getLsbD (k + bitIndex) = false := BitVec.getLsbD_of_ge _ _ (by omega)
    simp [hk, this]

/-- A `set`, bit by bit (R102). -/
theorem withField_getLsbD (word : Word) (bitIndex size value k : Nat) (hk : k < 64) :
    (withField word bitIndex size value).getLsbD k =
      if bitIndex ≤ k ∧ k < bitIndex + size then value.testBit (k - bitIndex) else word.getLsbD k := by
  have hk' : k - bitIndex < 64 := by omega
  simp only [withField, BitVec.getLsbD_or, BitVec.getLsbD_and, BitVec.getLsbD_not, BitVec.getLsbD_shiftLeft, hk,
    ones_getLsbD _ _ hk', wordOfNat_getLsbD, hk', decide_true, Bool.true_and]
  by_cases h1 : k < bitIndex
  · simp [h1]
  · by_cases h2 : k < bitIndex + size
    · have h3 : k - bitIndex < size := by omega
      have h4 : bitIndex ≤ k := by omega
      simp [h1, h2, h3, h4]
    · have h3 : ¬ k - bitIndex < size := by omega
      simp [h1, h2, h3]

theorem bfGet_of_le (word : Word) {bitIndex size : Nat} (h : bitIndex + size ≤ 64) :
    bfGet word bitIndex size = some (field word bitIndex size) := by
  simp [bfGet, Nat.not_lt.mpr h]

theorem bfGet_of_gt (word : Word) {bitIndex size : Nat} (h : 64 < bitIndex + size) : bfGet word bitIndex size = none := by
  simp [bfGet, h]

theorem bfSet_of_le (word : Word) (value : Nat) {bitIndex size : Nat} (h : bitIndex + size ≤ 64) :
    bfSet word bitIndex size value = some (withField word bitIndex size value) := by
  simp [bfSet, Nat.not_lt.mpr h]

theorem bfSet_of_gt (word : Word) (value : Nat) {bitIndex size : Nat} (h : 64 < bitIndex + size) :
    bfSet word bitIndex size value = none := by
  simp [bfSet, h]

/-- A flag is one bit of the word (R71). -/
theorem flag_eq_getLsbD (word : Word) (k : Nat) : flag word k = word.getLsbD k := by
  have h : (field word k 1).toNat = (word.getLsbD k).toNat := by
    rw [field_toNat, ← BitVec.testBit_toNat, Nat.testBit_eq_decide_div_mod_eq]
    have := Nat.mod_two_eq_zero_or_one (word.toNat / 2 ^ k)
    rcases this with h | h <;> simp [h]
  cases hb : word.getLsbD k
  · have : field word k 1 = 0#64 := BitVec.eq_of_toNat_eq (by simp [h, hb])
    simp [flag, this]
  · have : field word k 1 = 1#64 := BitVec.eq_of_toNat_eq (by simp [h, hb])
    simp [flag, this]

@[simp] theorem pteValid_eq (pte : Word) : pteValid pte = pte.getLsbD 0 := flag_eq_getLsbD pte 0
@[simp] theorem pteRead_eq (pte : Word) : pteRead pte = pte.getLsbD 1 := flag_eq_getLsbD pte 1
@[simp] theorem pteWrite_eq (pte : Word) : pteWrite pte = pte.getLsbD 2 := flag_eq_getLsbD pte 2
@[simp] theorem pteExecute_eq (pte : Word) : pteExecute pte = pte.getLsbD 3 := flag_eq_getLsbD pte 3

/-- The PPN of a PTE, as a number (R71). -/
theorem ptePpn_toNat (pte : Word) : (ptePpn pte).toNat = pte.toNat / 2 ^ 10 % 2 ^ 44 := by
  rw [ptePpn, BitVec.toNat_setWidth, field_toNat, Nat.mod_mod]

/-- The fields of a TC value, as numbers (R70). -/
theorem tcMode_toNat (tc : Word) : (tcMode tc).toNat = tc.toNat / 2 ^ 60 := by
  have h : tc.toNat / 2 ^ 60 < 2 ^ 4 := by have := tc.isLt; omega
  rw [tcMode, BitVec.toNat_setWidth, field_toNat, Nat.mod_mod, Nat.mod_eq_of_lt h]

theorem tcAddressSpaceId_toNat (tc : Word) : (tcAddressSpaceId tc).toNat = tc.toNat / 2 ^ 44 % 2 ^ 16 := by
  rw [tcAddressSpaceId, BitVec.toNat_setWidth, field_toNat, Nat.mod_mod]

theorem tcRootPPN_toNat (tc : Word) : (tcRootPPN tc).toNat = tc.toNat % 2 ^ 44 := by
  rw [tcRootPPN, BitVec.toNat_setWidth, field_toNat, Nat.mod_mod, Nat.pow_zero, Nat.div_one]

/-- A bit vector is determined by its number. -/
theorem eq_ofNat_of_toNat {n m : Nat} {x : BitVec n} (h : x.toNat = m) : x = BitVec.ofNat n m := by
  rw [← h, BitVec.ofNat_toNat, BitVec.setWidth_eq]

/-- One more byte above a word that fits below it. -/
theorem or_shiftLeft_toNat (w : Word) (b : Byte) (k : Nat) (hk : k + 8 ≤ 64) (hw : w.toNat < 2 ^ k) :
    (w ||| (b.setWidth 64 <<< k)).toNat = w.toNat + b.toNat * 2 ^ k := by
  have hb := b.isLt
  have h1 : b.toNat * 2 ^ k < 2 ^ 64 :=
    calc b.toNat * 2 ^ k < 2 ^ 8 * 2 ^ k := Nat.mul_lt_mul_of_pos_right hb (Nat.two_pow_pos k)
      _ = 2 ^ (8 + k) := by rw [Nat.pow_add]
      _ ≤ 2 ^ 64 := Nat.pow_le_pow_right (by decide) (by omega)
  rw [BitVec.toNat_or, BitVec.toNat_shiftLeft, BitVec.toNat_setWidth, Nat.shiftLeft_eq,
    Nat.mod_eq_of_lt (show b.toNat < 2 ^ 64 by omega), Nat.mod_eq_of_lt h1, Nat.or_comm, Nat.mul_comm,
    ← Nat.two_pow_add_eq_or_of_lt hw, Nat.add_comm]

/-- The little-endian word of eight bytes, as a number (R15, R53). -/
theorem le_toNat (b : PteBytes) : (le b).toNat = refLe b := by
  have h0 : (b.b0.setWidth 64).toNat = b.b0.toNat := by
    rw [BitVec.toNat_setWidth]
    exact Nat.mod_eq_of_lt (by have := b.b0.isLt; omega)
  have := b.b0.isLt
  have := b.b1.isLt
  have := b.b2.isLt
  have := b.b3.isLt
  have := b.b4.isLt
  have := b.b5.isLt
  have := b.b6.isLt
  have := b.b7.isLt
  have h1 := or_shiftLeft_toNat (b.b0.setWidth 64) b.b1 8 (by omega) (by omega)
  have h2 := or_shiftLeft_toNat _ b.b2 16 (by omega) (by rw [h1]; omega)
  have h3 := or_shiftLeft_toNat _ b.b3 24 (by omega) (by rw [h2]; omega)
  have h4 := or_shiftLeft_toNat _ b.b4 32 (by omega) (by rw [h3]; omega)
  have h5 := or_shiftLeft_toNat _ b.b5 40 (by omega) (by rw [h4]; omega)
  have h6 := or_shiftLeft_toNat _ b.b6 48 (by omega) (by rw [h5]; omega)
  have h7 := or_shiftLeft_toNat _ b.b7 56 (by omega) (by rw [h6]; omega)
  unfold le refLe
  rw [h7, h6, h5, h4, h3, h2, h1, h0]

theorem le_eq_ofNat (b : PteBytes) : le b = BitVec.ofNat 64 (refLe b) := eq_ofNat_of_toNat (le_toNat b)

theorem le_getLsbD (b : PteBytes) (k : Nat) : (le b).getLsbD k = (refLe b).testBit k := by
  rw [← le_toNat, BitVec.testBit_toNat]

/-- A frame's base, as a number: no wrap, since a PPN has 44 bits (R25, R57). -/
theorem frameBase_toNat (scheme : Scheme) (ppn : BitVec 44) : (frameBase (schemeRow scheme) ppn).toNat = ppn.toNat * 4096 := by
  have h := ppn.isLt
  have hp : (schemeRow scheme).pageSize = 4096 := by cases scheme <;> rfl
  rw [frameBase, wordOfNat, BitVec.toNat_ofNat, hp]
  exact Nat.mod_eq_of_lt (by omega)

end Sys2Proof.Machine
end

