-- ==== Sys2Proof/Laws/Decode.lean ====
section
/-! SUPPORT. The op codes are told apart: a code and its operation determine each other. -/

namespace Sys2Proof

theorem Opcode.ofCode_code (c : Opcode) : Opcode.ofCode c.code = some c := by
  cases c <;> decide

theorem Opcode.code_of_ofCode {op : Byte} {c : Opcode} (h : Opcode.ofCode op = some c) : c.code = op := by
  have h := List.find?_some h
  simpa using h

/-- Operands that decode are of the types the operation has (R76). -/
theorem decodeOperands_signature {c : Opcode} {xs : List Operand} {i : Instr} (h : decodeOperands c xs = .ok i) :
    xs.map Operand.kind = c.signature := by
  unfold decodeOperands at h
  split at h
  case h_9 => cases h
  all_goals rfl

end Sys2Proof
end

