-- ==== Sys2Proof/Laws/Memory.lean ====
section
/-! SUPPORT. Every memory operation keeps the canonical form. -/

namespace Sys2Proof.Machine

/-- The canonical form, read from the head: the head's address is in range and below every later one. -/
theorem Memory.wf_cons (c : Host.Cell) (rest : Memory) :
    Memory.wf (c :: rest) = true ↔ c.1 < 2 ^ 64 ∧ (∀ d ∈ rest, c.1 < d.1) ∧ Memory.wf rest = true := by
  induction rest generalizing c with
  | nil => simp [Memory.wf]
  | cons d rest ih =>
    have step : Memory.wf (c :: d :: rest) = true ↔ c.1 < d.1 ∧ Memory.wf (d :: rest) = true := by simp [Memory.wf]
    rw [step]
    constructor
    · rintro ⟨h1, h2⟩
      obtain ⟨h3, h4, _⟩ := (ih d).mp h2
      refine ⟨by omega, ?_, h2⟩
      intro e he
      rcases List.mem_cons.mp he with rfl | he
      · exact h1
      · have := h4 e he
        omega
    · rintro ⟨_, h2, h3⟩
      exact ⟨h2 d (by simp), h3⟩

theorem Memory.mem_write {m : Memory} {addr : Nat} {b : Byte} {d : Host.Cell} (h : d ∈ m.write addr b) :
    d.1 = addr ∨ d ∈ m := by
  induction m with
  | nil => simp_all [Memory.write]
  | cons c rest ih =>
    simp only [Memory.write] at h
    split at h
    · rcases List.mem_cons.mp h with rfl | h
      · simp
      · rcases ih h with h | h
        · exact .inl h
        · simp [h]
    · split at h
      · rcases List.mem_cons.mp h with rfl | h
        · simp
        · simp [h]
      · rcases List.mem_cons.mp h with rfl | h
        · simp
        · exact .inr h

/-- A write inside the 64-bit space keeps the canonical form. -/
theorem Memory.write_wf (m : Memory) (addr : Nat) (b : Byte) (ha : addr < 2 ^ 64) (h : m.wf = true) :
    (m.write addr b).wf = true := by
  induction m with
  | nil => simpa [Memory.write, Memory.wf] using ha
  | cons c rest ih =>
    obtain ⟨h1, h2, h3⟩ := (Memory.wf_cons c rest).mp h
    simp only [Memory.write]
    split
    · rename_i hlt
      refine (Memory.wf_cons _ _).mpr ⟨h1, ?_, ih h3⟩
      intro d hd
      rcases Memory.mem_write hd with hd | hd
      · omega
      · exact h2 d hd
    · split
      · rename_i heq
        refine (Memory.wf_cons _ _).mpr ⟨ha, ?_, h3⟩
        intro d hd
        have := h2 d hd
        simp only
        omega
      · refine (Memory.wf_cons _ _).mpr ⟨ha, ?_, h⟩
        intro d hd
        rcases List.mem_cons.mp hd with rfl | hd
        · simp only
          omega
        · have := h2 d hd
          simp only
          omega

theorem Memory.mem_unmap {m : Memory} {addr : Nat} {d : Host.Cell} (h : d ∈ m.unmap addr) : d ∈ m := by
  induction m with
  | nil => simp_all [Memory.unmap]
  | cons c rest ih =>
    simp only [Memory.unmap] at h
    split at h
    · simp [h]
    · rcases List.mem_cons.mp h with rfl | h
      · simp
      · simp [ih h]

/-- Unmapping a byte keeps the canonical form. -/
theorem Memory.unmap_wf (m : Memory) (addr : Nat) (h : m.wf = true) : (m.unmap addr).wf = true := by
  induction m with
  | nil => simp [Memory.unmap, Memory.wf]
  | cons c rest ih =>
    obtain ⟨h1, h2, h3⟩ := (Memory.wf_cons c rest).mp h
    simp only [Memory.unmap]
    split
    · exact h3
    · exact (Memory.wf_cons _ _).mpr ⟨h1, fun d hd => h2 d (Memory.mem_unmap hd), ih h3⟩

/-- No turn of the environment breaks the canonical form. -/
theorem State.applyTurn_mem_wf (s : State) (turn : Turn) (h : s.accessor.mem.wf = true) :
    (s.applyTurn turn).accessor.mem.wf = true := by
  cases turn with
  | writeByte address b => exact Memory.write_wf _ _ _ address.isLt h
  | unmapByte address => exact Memory.unmap_wf _ _ h
  | select k =>
    simp only [State.applyTurn, State.select]
    split <;> exact h
  | block => exact h
  | newAgent => exact h
  | submit d => exact h
  | setTc w => exact h
  | forceAnswer x => exact h
  | stall => exact h
  | resume => exact h
  | reset => exact h

theorem State.reset_mem_wf : State.reset.accessor.mem.wf = true := rfl

end Sys2Proof.Machine
end

