-- ==== Sys2Proof/Laws/State.lean ====
section
/-! SUPPORT. One lemma per field for each update of the state and of a block. -/

namespace Sys2Proof.Machine

@[simp] theorem State.withBlock_block (s : State) (b : Block) :
    (s.withBlock b).cur.block = b := rfl
@[simp] theorem State.withBlock_requests (s : State) (b : Block) :
    (s.withBlock b).cur.requests = s.cur.requests := rfl
@[simp] theorem State.withBlock_delivered (s : State) (b : Block) :
    (s.withBlock b).cur.delivered = s.cur.delivered := rfl
@[simp] theorem State.withBlock_reads (s : State) (b : Block) :
    (s.withBlock b).cur.reads = s.cur.reads := rfl
@[simp] theorem State.withBlock_samples (s : State) (b : Block) :
    (s.withBlock b).cur.samples = s.cur.samples := rfl
@[simp] theorem State.withBlock_parked (s : State) (b : Block) :
    (s.withBlock b).parked = s.parked := rfl
@[simp] theorem State.withBlock_tcRegister (s : State) (b : Block) :
    (s.withBlock b).tcRegister = s.tcRegister := rfl
@[simp] theorem State.withBlock_accessor (s : State) (b : Block) :
    (s.withBlock b).accessor = s.accessor := rfl
@[simp] theorem State.withBlock_schedule (s : State) (b : Block) :
    (s.withBlock b).schedule = s.schedule := rfl

@[simp] theorem State.deliver_block (s : State) (r : Result) :
    (s.deliver r).cur.block = s.cur.block := rfl
@[simp] theorem State.deliver_requests (s : State) (r : Result) :
    (s.deliver r).cur.requests = s.cur.requests := rfl
@[simp] theorem State.deliver_delivered (s : State) (r : Result) :
    (s.deliver r).cur.delivered = s.cur.delivered ++ [r] := rfl
@[simp] theorem State.deliver_reads (s : State) (r : Result) :
    (s.deliver r).cur.reads = s.cur.reads := rfl
@[simp] theorem State.deliver_samples (s : State) (r : Result) :
    (s.deliver r).cur.samples = s.cur.samples := rfl
@[simp] theorem State.deliver_parked (s : State) (r : Result) :
    (s.deliver r).parked = s.parked := rfl
@[simp] theorem State.deliver_tcRegister (s : State) (r : Result) :
    (s.deliver r).tcRegister = s.tcRegister := rfl
@[simp] theorem State.deliver_accessor (s : State) (r : Result) :
    (s.deliver r).accessor = s.accessor := rfl
@[simp] theorem State.deliver_schedule (s : State) (r : Result) :
    (s.deliver r).schedule = s.schedule := rfl

@[simp] theorem State.sampled_block (s : State) (w : Word) :
    (s.sampled w).cur.block = s.cur.block := rfl
@[simp] theorem State.sampled_requests (s : State) (w : Word) :
    (s.sampled w).cur.requests = s.cur.requests := rfl
@[simp] theorem State.sampled_delivered (s : State) (w : Word) :
    (s.sampled w).cur.delivered = s.cur.delivered := rfl
@[simp] theorem State.sampled_reads (s : State) (w : Word) :
    (s.sampled w).cur.reads = s.cur.reads := rfl
@[simp] theorem State.sampled_samples (s : State) (w : Word) :
    (s.sampled w).cur.samples = s.cur.samples ++ [w] := rfl
@[simp] theorem State.sampled_parked (s : State) (w : Word) :
    (s.sampled w).parked = s.parked := rfl
@[simp] theorem State.sampled_tcRegister (s : State) (w : Word) :
    (s.sampled w).tcRegister = s.tcRegister := rfl
@[simp] theorem State.sampled_accessor (s : State) (w : Word) :
    (s.sampled w).accessor = s.accessor := rfl
@[simp] theorem State.sampled_schedule (s : State) (w : Word) :
    (s.sampled w).schedule = s.schedule := rfl

@[simp] theorem State.afterRead_block (s : State) (addr : Word) (n : Nat) :
    (s.afterRead addr n).cur.block = s.cur.block := rfl
@[simp] theorem State.afterRead_requests (s : State) (addr : Word) (n : Nat) :
    (s.afterRead addr n).cur.requests = s.cur.requests := rfl
@[simp] theorem State.afterRead_delivered (s : State) (addr : Word) (n : Nat) :
    (s.afterRead addr n).cur.delivered = s.cur.delivered := rfl
@[simp] theorem State.afterRead_reads (s : State) (addr : Word) (n : Nat) :
    (s.afterRead addr n).cur.reads = s.cur.reads ++ [⟨addr, n⟩] := rfl
@[simp] theorem State.afterRead_samples (s : State) (addr : Word) (n : Nat) :
    (s.afterRead addr n).cur.samples = s.cur.samples := rfl
@[simp] theorem State.afterRead_parked (s : State) (addr : Word) (n : Nat) :
    (s.afterRead addr n).parked = s.parked := rfl
@[simp] theorem State.afterRead_tcRegister (s : State) (addr : Word) (n : Nat) :
    (s.afterRead addr n).tcRegister = s.tcRegister := rfl
@[simp] theorem State.afterRead_accessor (s : State) (addr : Word) (n : Nat) :
    (s.afterRead addr n).accessor = s.accessor.answered := rfl
@[simp] theorem State.afterRead_schedule (s : State) (addr : Word) (n : Nat) :
    (s.afterRead addr n).schedule = s.schedule := rfl

@[simp] theorem Block.raise_ctrl (b : Block) (f : WalkFault) : (b.raise f).ctrl = .faulted f := rfl
@[simp] theorem Block.raise_scheme (b : Block) (f : WalkFault) : (b.raise f).scheme = b.scheme := rfl
@[simp] theorem Block.raise_tc (b : Block) (f : WalkFault) : (b.raise f).tc = b.tc := rfl
@[simp] theorem Block.raise_va (b : Block) (f : WalkFault) : (b.raise f).va = b.va := rfl
@[simp] theorem Block.raise_pte (b : Block) (f : WalkFault) : (b.raise f).pte = b.pte := rfl
@[simp] theorem Block.raise_pa (b : Block) (f : WalkFault) : (b.raise f).pa = b.pa := rfl
@[simp] theorem Block.raise_vpn (b : Block) (f : WalkFault) : (b.raise f).vpn = b.vpn := rfl
@[simp] theorem Block.raise_a (b : Block) (f : WalkFault) : (b.raise f).a = b.a := rfl
@[simp] theorem Block.raise_response (b : Block) (f : WalkFault) : (b.raise f).response = .holds (.fault f.toTranslationFault) := rfl

@[simp] theorem Block.disable_ctrl (b : Block) : (b.disable).ctrl = .translationDisabled := rfl
@[simp] theorem Block.disable_scheme (b : Block) : (b.disable).scheme = b.scheme := rfl
@[simp] theorem Block.disable_tc (b : Block) : (b.disable).tc = b.tc := rfl
@[simp] theorem Block.disable_va (b : Block) : (b.disable).va = b.va := rfl
@[simp] theorem Block.disable_pte (b : Block) : (b.disable).pte = b.pte := rfl
@[simp] theorem Block.disable_pa (b : Block) : (b.disable).pa = b.pa := rfl
@[simp] theorem Block.disable_vpn (b : Block) : (b.disable).vpn = b.vpn := rfl
@[simp] theorem Block.disable_a (b : Block) : (b.disable).a = b.a := rfl
@[simp] theorem Block.disable_response (b : Block) : (b.disable).response = .holds (.fault .translationDisabled) := rfl

@[simp] theorem Block.succeed_ctrl (b : Block) (pa : Word) (r : Rights) : (b.succeed pa r).ctrl = .done := rfl
@[simp] theorem Block.succeed_scheme (b : Block) (pa : Word) (r : Rights) : (b.succeed pa r).scheme = b.scheme := rfl
@[simp] theorem Block.succeed_tc (b : Block) (pa : Word) (r : Rights) : (b.succeed pa r).tc = b.tc := rfl
@[simp] theorem Block.succeed_va (b : Block) (pa : Word) (r : Rights) : (b.succeed pa r).va = b.va := rfl
@[simp] theorem Block.succeed_pte (b : Block) (pa : Word) (r : Rights) : (b.succeed pa r).pte = b.pte := rfl
@[simp] theorem Block.succeed_pa (b : Block) (pa : Word) (r : Rights) : (b.succeed pa r).pa = b.pa := rfl
@[simp] theorem Block.succeed_vpn (b : Block) (pa : Word) (r : Rights) : (b.succeed pa r).vpn = b.vpn := rfl
@[simp] theorem Block.succeed_a (b : Block) (pa : Word) (r : Rights) : (b.succeed pa r).a = b.a := rfl
@[simp] theorem Block.succeed_response (b : Block) (pa : Word) (r : Rights) : (b.succeed pa r).response = .holds (.ok pa r) := rfl

@[simp] theorem Accessor.answered_forced (acc : Accessor) : acc.answered.forced = none := rfl
@[simp] theorem Accessor.answered_draws (acc : Accessor) : acc.answered.draws = acc.draws + 1 := rfl
@[simp] theorem Accessor.answered_mem (acc : Accessor) : acc.answered.mem = acc.mem := rfl
@[simp] theorem Accessor.answered_stalled (acc : Accessor) : acc.answered.stalled = acc.stalled := rfl

@[simp] theorem Reg.read_holds {α : Type} (v : α) : (Reg.holds v).read = v := rfl
@[simp] theorem Reg.read_unwritten {α : Type} (v : α) : (Reg.unwritten v).read = v := rfl

theorem State.withBlock_withBlock (s : State) (b c : Block) : (s.withBlock b).withBlock c = s.withBlock c := rfl

end Sys2Proof.Machine
end

