-- ==== Sys2Proof/Laws/Ops.lean ====
section
/-! SUPPORT. What each shared operation can do, said once: accepting a request, delivering a response, executing an
operation. -/

namespace Sys2Proof.Machine

theorem State.accept_of_idle {s : State} (effect : State) (h : s.cur.block.ctrl = .idle) : s.accept effect = .next effect := by
  simp [State.accept, h]

theorem State.accept_of_not_idle {s : State} (effect : State) (h : s.cur.block.ctrl ≠ .idle) :
    s.accept effect = .refused .busy := by
  simp [State.accept, h]

/-- An operation is accepted in Idle alone, and then its effect is the next state. -/
theorem State.accept_next {s effect t : State} : s.accept effect = .next t ↔ s.cur.block.ctrl = .idle ∧ t = effect := by
  by_cases h : s.cur.block.ctrl = .idle
  · simp [State.accept, h, eq_comm]
  · simp [State.accept, h]

theorem State.accept_ne_fault (s effect : State) (f : Fault) : s.accept effect ≠ .fault f := by
  unfold State.accept
  split <;> simp

/-- A delivery puts the response register's value on the channel and leaves the block as after reset. -/
theorem State.deliverResponse_of_holds {s : State} {r : Response} (h : s.cur.block.response = .holds r) :
    s.deliverResponse = (s.deliver (.translation r)).withBlock Block.reset := by
  rw [State.deliverResponse, h]
  rfl

/-- TRANSLATE.SV39 and TRANSLATE.SV48 are the start of one call under their scheme (R130). -/
theorem exec_translateInstr (scheme : Scheme) (va : Word) (s : State) :
    exec (translateInstr scheme va) s = startTranslation scheme va s := by
  cases scheme <;> rfl

theorem schemeOfSelector_lt {n : Nat} (h : n < 2) : ∃ scheme, schemeOfSelector n = some scheme := by
  match n, h with
  | 0, _ => exact ⟨.sv39, rfl⟩
  | 1, _ => exact ⟨.sv48, rfl⟩

theorem schemeOfSelector_ge {n : Nat} (h : 2 ≤ n) : schemeOfSelector n = none := by
  match n, h with
  | n + 2, _ => rfl

/-- Everything an operation can do when it gives a next state: it was accepted in Idle, and it either delivers one result
and changes nothing else, or starts a translation call. -/
theorem exec_next {i : Instr} {s t : State} (h : exec i s = .next t) :
    s.cur.block.ctrl = .idle ∧
      ((∃ r, t = s.deliver r) ∨
        ∃ scheme va, i = translateInstr scheme va ∧
          t = (s.sampled s.tcRegister).withBlock (s.cur.block.startCall scheme va s.tcRegister)) := by
  cases i with
  | bfGet w b n => exact ⟨(State.accept_next.mp h).1, .inl ⟨_, (State.accept_next.mp h).2⟩⟩
  | bfSet w b n v => exact ⟨(State.accept_next.mp h).1, .inl ⟨_, (State.accept_next.mp h).2⟩⟩
  | bfValue w => exact ⟨(State.accept_next.mp h).1, .inl ⟨_, (State.accept_next.mp h).2⟩⟩
  | tcDecode raw => exact ⟨(State.accept_next.mp h).1, .inl ⟨_, (State.accept_next.mp h).2⟩⟩
  | pteDecode b0 b1 b2 b3 b4 b5 b6 b7 => exact ⟨(State.accept_next.mp h).1, .inl ⟨_, (State.accept_next.mp h).2⟩⟩
  | schemeLookup n =>
    simp only [exec, execSchemeLookup] at h
    split at h
    · exact ⟨(State.accept_next.mp h).1, .inl ⟨_, (State.accept_next.mp h).2⟩⟩
    · cases h
  | translateSv39 va => exact ⟨(State.accept_next.mp h).1, .inr ⟨.sv39, va, rfl, (State.accept_next.mp h).2⟩⟩
  | translateSv48 va => exact ⟨(State.accept_next.mp h).1, .inr ⟨.sv48, va, rfl, (State.accept_next.mp h).2⟩⟩

/-- No operation stops with a fault. -/
theorem exec_ne_fault (i : Instr) (s : State) (f : Fault) : exec i s ≠ .fault f := by
  cases i with
  | schemeLookup n =>
    simp only [exec, execSchemeLookup]
    split
    · exact State.accept_ne_fault _ _ _
    · simp
  | bfGet w b n => exact State.accept_ne_fault _ _ _
  | bfSet w b n v => exact State.accept_ne_fault _ _ _
  | bfValue w => exact State.accept_ne_fault _ _ _
  | tcDecode raw => exact State.accept_ne_fault _ _ _
  | pteDecode b0 b1 b2 b3 b4 b5 b6 b7 => exact State.accept_ne_fault _ _ _
  | translateSv39 va => exact State.accept_ne_fault _ _ _
  | translateSv48 va => exact State.accept_ne_fault _ _ _

end Sys2Proof.Machine
end

