-- ==== Sys2Proof/Laws/PerInstr.lean ====
section
/-! SUPPORT. Statements for all operations, one lemma per constructor. -/

namespace Sys2Proof.Laws.EncodeShape

/-- The descriptor of an operation carries its op code, and operands of the types the table gives it (R76). -/
def Statement (i : Instr) : Prop :=
  Opcode.ofCode (encode i).op = some i.opcode ∧ (encode i).operands.map Operand.kind = i.opcode.signature

theorem bfGet (word : Word) (bitIndex size : Nat) : Statement (.bfGet word bitIndex size) :=
  ⟨Opcode.ofCode_code .bfGet, rfl⟩

theorem bfSet (word : Word) (bitIndex size value : Nat) : Statement (.bfSet word bitIndex size value) :=
  ⟨Opcode.ofCode_code .bfSet, rfl⟩

theorem bfValue (word : Word) : Statement (.bfValue word) := ⟨Opcode.ofCode_code .bfValue, rfl⟩

theorem tcDecode (raw : Word) : Statement (.tcDecode raw) := ⟨Opcode.ofCode_code .tcDecode, rfl⟩

theorem pteDecode (b0 b1 b2 b3 b4 b5 b6 b7 : Byte) : Statement (.pteDecode b0 b1 b2 b3 b4 b5 b6 b7) :=
  ⟨Opcode.ofCode_code .pteDecode, rfl⟩

theorem schemeLookup (selector : Nat) : Statement (.schemeLookup selector) := ⟨Opcode.ofCode_code .schemeLookup, rfl⟩

theorem translateSv39 (virtualAddress : Word) : Statement (.translateSv39 virtualAddress) := ⟨Opcode.ofCode_code .translateSv39, rfl⟩

theorem translateSv48 (virtualAddress : Word) : Statement (.translateSv48 virtualAddress) := ⟨Opcode.ofCode_code .translateSv48, rfl⟩

end Sys2Proof.Laws.EncodeShape
end

