-- ==== Sys2Proof/Laws/Scheme.lean ====
section
/-! SUPPORT. The parameters of the two configuration rows, and what they make of the bit layouts. -/

namespace Sys2Proof.Machine

@[simp] theorem schemeRow_levels (scheme : Scheme) : (schemeRow scheme).levels = refLevels scheme := by
  cases scheme <;> rfl

@[simp] theorem schemeRow_entrySize (scheme : Scheme) : (schemeRow scheme).entrySize = 8 := by
  cases scheme <;> rfl

@[simp] theorem schemeRow_pageSize (scheme : Scheme) : (schemeRow scheme).pageSize = 4096 := by
  cases scheme <;> rfl

@[simp] theorem schemeRow_vpnWidth (scheme : Scheme) : (schemeRow scheme).vpnWidth = 9 := by
  cases scheme <;> rfl

theorem refLevels_le (scheme : Scheme) : refLevels scheme ≤ 4 := by
  cases scheme <;> decide

theorem refLevels_pos (scheme : Scheme) : 0 < refLevels scheme := by
  cases scheme <;> decide

/-- `S_low` at a stopping level (R149). -/
theorem ppnLow_eq {scheme : Scheme} {i : Nat} (h : i < refLevels scheme) : ppnLow (schemeRow scheme) i = 9 * i := by
  cases scheme <;> simp only [refLevels] at h <;> interval_cases i <;> rfl

/-- `S_high` at a stopping level (R149). -/
theorem ppnHigh_eq {scheme : Scheme} {i : Nat} (h : i < refLevels scheme) : ppnHigh (schemeRow scheme) i = 44 - 9 * i := by
  cases scheme <;> simp only [refLevels] at h <;> interval_cases i <;> rfl

/-- One segment of a virtual address, as a number (R33). -/
theorem vpnSegment_toNat (scheme : Scheme) (va : Word) (k : Nat) :
    (vpnSegment (schemeRow scheme) va k).toNat = va.toNat / 2 ^ (12 + 9 * k) % 512 := by
  rw [vpnSegment, BitVec.toNat_setWidth, field_toNat, schemeRow_vpnWidth, Nat.mod_mod, Nat.mul_comm k 9]
  rfl

/-- The segment of a level is in the list of segments (R33). -/
theorem vpnSegments_get {scheme : Scheme} {va : Word} {i : Nat} (h : i < refLevels scheme) :
    (vpnSegments (schemeRow scheme) va)[i]? = some (vpnSegment (schemeRow scheme) va i) := by
  simp [vpnSegments, h]

/-- A mode is accepted exactly when the top four bits of the TC value are not all zero (R23). -/
theorem modeAccepted_iff (scheme : Scheme) (tc : Word) : modeAccepted scheme (tcMode tc) = true ↔ tc.toNat / 2 ^ 60 ≠ 0 := by
  rw [← tcMode_toNat]
  simp [modeAccepted, BitVec.toNat_eq]

end Sys2Proof.Machine
end

