-- ==== Sys2Proof/Laws/Walker.lean ====
section
/-! SUPPORT. What a level's step and the leaf's step can do, said once. -/

namespace Sys2Proof.Machine

theorem Block.config_of_written {b : Block} {scheme : Scheme} (h : b.scheme = .holds scheme) : b.config = schemeRow scheme := by
  rw [Block.config, h]
  rfl

/-- The address of a level, from the registers it needs (R136). -/
theorem Block.pteAddress_of_written {b : Block} {i : Nat} {scheme : Scheme} {base : Word} {vpn : List (BitVec 9)}
    {segment : BitVec 9} (h1 : b.scheme = .holds scheme) (h2 : b.a = .holds base) (h3 : b.vpn = .holds vpn)
    (h4 : vpn[i]? = some segment) : b.pteAddress i = Machine.pteAddress (schemeRow scheme) base segment := by
  simp [Block.pteAddress, Block.config_of_written h1, Block.vpnAt, h2, h3, h4]

/-- Everything a level's step can do: wait for the accessor, or read one PTE and go where the answer leads (R135, R180). -/
theorem walkStep_next {i : Nat} {s t : State} :
    walkStep i s = .next t ↔
      (s.accessor.stalled = true ∧ t = s) ∨
      (s.accessor.stalled = false ∧
        t = (s.afterRead (s.cur.block.pteAddress i) s.cur.block.config.entrySize).withBlock
          (s.cur.block.afterAnswer s.cur.block.config i (s.accessor.answer (s.cur.block.pteAddress i)))) := by
  unfold walkStep
  cases s.accessor.stalled <;> simp [eq_comm]

/-- A level's step with its registers written and an accessor that answers (R135, R136). -/
theorem walkStep_of_written {i : Nat} {s : State} {scheme : Scheme} {base : Word} {vpn : List (BitVec 9)}
    {segment : BitVec 9} (hs : s.accessor.stalled = false) (h1 : s.cur.block.scheme = .holds scheme)
    (h2 : s.cur.block.a = .holds base) (h3 : s.cur.block.vpn = .holds vpn) (h4 : vpn[i]? = some segment) :
    walkStep i s = .next
      ((s.afterRead (Machine.pteAddress (schemeRow scheme) base segment) (schemeRow scheme).entrySize).withBlock
        (s.cur.block.afterAnswer (schemeRow scheme) i
          (s.accessor.answer (Machine.pteAddress (schemeRow scheme) base segment)))) := by
  simp [walkStep, hs, Block.config_of_written h1, Block.pteAddress_of_written h1 h2 h3 h4]

theorem walkStep_stalled {i : Nat} {s : State} (hs : s.accessor.stalled = true) : walkStep i s = .next s := by
  simp [walkStep, hs]

theorem walkStep_ne_fault (i : Nat) (s : State) (f : Fault) : walkStep i s ≠ .fault f := by
  unfold walkStep
  split <;> simp

theorem walkStep_ne_refused (i : Nat) (s : State) (r : Refusal) : walkStep i s ≠ .refused r := by
  unfold walkStep
  split <;> simp

/-- The four ways of a PTE (R73). -/
theorem Block.examine_cases (b : Block) (cfg : SchemeConfig) (i : Nat) (pte : Word) :
    (b.examine cfg i pte = b.raise .invalidEntry ∧
        (pteType pte = .invalid ∨ pteType pte = .reserved ∨ (pteType pte = .pointer ∧ i = 0))) ∨
      (b.examine cfg i pte = { b with ctrl := .leafFound i } ∧ pteType pte = .leaf) ∨
      (∃ below, i = below + 1 ∧ pteType pte = .pointer ∧ b.examine cfg i pte = b.descend cfg pte below) := by
  unfold Block.examine
  cases h : pteType pte with
  | invalid => simp
  | reserved => simp
  | leaf => simp
  | pointer => cases i <;> simp

theorem leafStep_next {i : Nat} {s t : State} :
    leafStep i s = .next t ↔ ∃ b, s.cur.block.leaf i = .ok b ∧ t = s.withBlock b := by
  unfold leafStep
  cases s.cur.block.leaf i with
  | error f => simp
  | ok b => simp [eq_comm]

theorem leafStep_fault {i : Nat} {s : State} {f : Fault} : leafStep i s = .fault f ↔ s.cur.block.leaf i = .error f := by
  unfold leafStep
  cases s.cur.block.leaf i <;> simp

theorem leafStep_ne_refused (i : Nat) (s : State) (r : Refusal) : leafStep i s ≠ .refused r := by
  unfold leafStep
  split <;> simp

/-- Everything the leaf's step can do to a block: report a misaligned superpage, or assemble the address and succeed
(R145-R150). -/
theorem Block.leaf_ok {b b' : Block} {i : Nat} (h : b.leaf i = .ok b') :
    (superpageAligned b.config i b.pte.read = .ok false ∧ b' = b.raise .misalignedSuperpage) ∨
      (superpageAligned b.config i b.pte.read = .ok true ∧ ∃ pa, assemble b.config i b.va.read b.pte.read = .ok pa ∧
        b' = ({ b with pa := .holds pa } : Block).succeed pa (pteRights b.pte.read)) := by
  simp only [Block.leaf, bind, Except.bind, pure, Except.pure] at h
  cases ha : superpageAligned b.config i b.pte.read with
  | error f => simp [ha] at h
  | ok aligned =>
    cases aligned with
    | false => simp [ha] at h; exact .inl ⟨rfl, h.symm⟩
    | true =>
      simp only [ha, if_true] at h
      cases hm : assemble b.config i b.va.read b.pte.read with
      | error f => simp [hm] at h
      | ok pa => simp [hm] at h; exact .inr ⟨rfl, pa, rfl, h.symm⟩

/-- The leaf's step with its registers written, by what the alignment check says (R145, R146). -/
theorem Block.leaf_of_misaligned {b : Block} {i : Nat} {scheme : Scheme} {pte : Word} (h1 : b.scheme = .holds scheme)
    (h2 : b.pte = .holds pte) (h3 : superpageAligned (schemeRow scheme) i pte = .ok false) :
    b.leaf i = .ok (b.raise .misalignedSuperpage) := by
  simp [Block.leaf, Block.config, h1, h2, h3, bind, Except.bind, pure, Except.pure]

theorem Block.leaf_of_aligned {b : Block} {i : Nat} {scheme : Scheme} {pte va pa : Word} (h1 : b.scheme = .holds scheme)
    (h2 : b.pte = .holds pte) (h3 : superpageAligned (schemeRow scheme) i pte = .ok true) (h4 : b.va = .holds va)
    (h5 : assemble (schemeRow scheme) i va pte = .ok pa) :
    b.leaf i = .ok (({ b with pa := .holds pa } : Block).succeed pa (pteRights pte)) := by
  simp [Block.leaf, Block.config, h1, h2, h3, h4, h5, bind, Except.bind, pure, Except.pure]

end Sys2Proof.Machine
end

