-- ==== Sys2Proof/Laws/Step.lean ====
section
/-! SUPPORT. What one step can do, said once. -/

namespace Sys2Proof.Machine

/-- A step in which the environment has no turn is the block's step, the turn taken. -/
theorem step_of_blockTurn {s : State} (h : s.blockTurn) : step s = blockStep s.turnTaken := by
  rcases h with h | ⟨rest, h⟩
  · have : s.turnTaken = s := by
      cases s
      simp_all [State.turnTaken]
    rw [this, step, h]
  · simp [step, h, State.turnTaken]

/-- A step is the block's or one turn of the environment. -/
theorem step_cases (s : State) :
    (s.blockTurn ∧ step s = blockStep s.turnTaken) ∨
      ∃ turn rest, s.schedule = turn :: rest ∧ turn ≠ .block ∧
        step s = .next (({ s with schedule := rest } : State).applyTurn turn) := by
  cases h : s.schedule with
  | nil => exact .inl ⟨.inl h, step_of_blockTurn (.inl h)⟩
  | cons turn rest =>
    cases turn with
    | block => exact .inl ⟨.inr ⟨rest, h⟩, step_of_blockTurn (.inr ⟨rest, h⟩)⟩
    | select k => exact .inr ⟨_, rest, rfl, by simp, by simp [step, h]⟩
    | newAgent => exact .inr ⟨_, rest, rfl, by simp, by simp [step, h]⟩
    | submit d => exact .inr ⟨_, rest, rfl, by simp, by simp [step, h]⟩
    | setTc w => exact .inr ⟨_, rest, rfl, by simp, by simp [step, h]⟩
    | writeByte address b => exact .inr ⟨_, rest, rfl, by simp, by simp [step, h]⟩
    | unmapByte address => exact .inr ⟨_, rest, rfl, by simp, by simp [step, h]⟩
    | forceAnswer x => exact .inr ⟨_, rest, rfl, by simp, by simp [step, h]⟩
    | stall => exact .inr ⟨_, rest, rfl, by simp, by simp [step, h]⟩
    | resume => exact .inr ⟨_, rest, rfl, by simp, by simp [step, h]⟩
    | reset => exact .inr ⟨_, rest, rfl, by simp, by simp [step, h]⟩

theorem State.intake_of_nil {s : State} (h : s.cur.requests = []) : s.intake = .nothing := by
  simp [State.intake, h]

theorem State.intake_of_ok {s : State} {d : Descriptor} {rest : List Descriptor} {i : Instr}
    (h : s.cur.requests = d :: rest) (hd : decode d = .ok i) :
    s.intake = .operation i { s with cur := { s.cur with requests := rest } } := by
  simp [State.intake, h, hd]

theorem State.intake_of_error {s : State} {d : Descriptor} {rest : List Descriptor} {e : DecodeError}
    (h : s.cur.requests = d :: rest) (hd : decode d = .error e) : s.intake = .bad e := by
  simp [State.intake, h, hd]

/-- Where the intake gives an operation, its request stood at the head of the channel. -/
theorem State.intake_operation {s s' : State} {i : Instr} (h : s.intake = .operation i s') :
    ∃ d rest, s.cur.requests = d :: rest ∧ decode d = .ok i ∧ s' = { s with cur := { s.cur with requests := rest } } := by
  unfold State.intake at h
  split at h
  · cases h
  · rename_i d rest hr
    split at h
    · cases h
    · rename_i j hd
      cases h
      exact ⟨d, rest, hr, hd, rfl⟩

/-- Everything the block's own step can do when it gives a next state, by the state of the sequencer (R132). -/
theorem blockStep_next {s t : State} (h : blockStep s = .next t) :
    (s.cur.block.ctrl = .idle ∧ t = s ∧ s.cur.requests = []) ∨
      (s.cur.block.ctrl = .idle ∧ ∃ d rest i, s.cur.requests = d :: rest ∧ decode d = .ok i ∧
        exec i { s with cur := { s.cur with requests := rest } } = .next t) ∨
      (∃ i, s.cur.block.ctrl = .walkingLevel i ∧ walkStep i s = .next t) ∨
      (∃ i, s.cur.block.ctrl = .leafFound i ∧ leafStep i s = .next t) ∨
      (s.cur.block.ctrl.terminal = true ∧ t = s.deliverResponse) := by
  unfold blockStep at h
  split at h
  · rename_i hc
    split at h
    · rename_i hi
      refine .inl ⟨hc, by cases h; rfl, ?_⟩
      unfold State.intake at hi
      split at hi
      · assumption
      · split at hi <;> cases hi
    · cases h
    · rename_i i s' hi
      obtain ⟨d, rest, hr, hd, hs⟩ := State.intake_operation hi
      subst hs
      exact .inr (.inl ⟨hc, d, rest, i, hr, hd, h⟩)
  · rename_i i hc
    exact .inr (.inr (.inl ⟨i, hc, h⟩))
  · rename_i i hc
    exact .inr (.inr (.inr (.inl ⟨i, hc, h⟩)))
  · rename_i hc
    exact .inr (.inr (.inr (.inr ⟨by simp [hc, Ctrl.terminal], by cases h; rfl⟩)))
  · rename_i hc
    exact .inr (.inr (.inr (.inr ⟨by simp [hc, Ctrl.terminal], by cases h; rfl⟩)))
  · rename_i hc
    exact .inr (.inr (.inr (.inr ⟨by simp [hc, Ctrl.terminal], by cases h; rfl⟩)))

/-- A fault of the block's own step comes from a leaf. -/
theorem blockStep_fault {s : State} {f : Fault} (h : blockStep s = .fault f) :
    ∃ i, s.cur.block.ctrl = .leafFound i ∧ leafStep i s = .fault f := by
  unfold blockStep at h
  split at h
  · split at h
    · cases h
    · cases h
    · exact absurd h (exec_ne_fault _ _ _)
  · exact absurd h (walkStep_ne_fault _ _ _)
  · rename_i i hc
    exact ⟨i, hc, h⟩
  · cases h
  · cases h
  · cases h

end Sys2Proof.Machine
end

