-- ==== Sys2Proof/Laws/Safety.lean ====
section
/-! SUPPORT. The predicates of Safety.lean, taken apart. -/

namespace Sys2Proof.Machine

theorem Reg.satisfies_iff {α : Type} {r : Reg α} {p : α → Bool} : r.satisfies p = true ↔ ∃ v, r = .holds v ∧ p v = true := by
  cases r <;> simp [Reg.satisfies]

@[simp] theorem Reg.isWritten_unwritten {α : Type} (v : α) : (Reg.unwritten v).isWritten = false := rfl
@[simp] theorem Reg.isWritten_holds {α : Type} (v : α) : (Reg.holds v).isWritten = true := rfl

@[simp] theorem Block.reset_nothingWritten : Block.reset.nothingWritten = true := rfl

@[simp] theorem Reg.agrees_refl {α : Type} (r : Reg α) : r.agrees r := by
  cases r <;> simp [Reg.agrees]

/-- A register that agrees with a written one is the same register. -/
@[simp] theorem Reg.agrees_holds {α : Type} {v : α} {r : Reg α} : (Reg.holds v).agrees r ↔ r = .holds v := by
  cases r <;> simp [Reg.agrees, eq_comm]

@[simp] theorem Block.agrees_refl (b : Block) : b.agrees b := by
  simp [Block.agrees]

/-- What holds while a call is at a level, field by field. -/
theorem Block.walking_iff {b : Block} {i : Nat} :
    b.walking i = true ↔ ∃ scheme tc va base, b.scheme = .holds scheme ∧ b.tc = .holds tc ∧ b.va = .holds va ∧
      b.a = .holds base ∧ i < refLevels scheme ∧ b.vpn = .holds (vpnSegments (schemeRow scheme) va) ∧ tcMode tc ≠ 0#4 ∧
      tableBase base = true ∧ b.pa.isWritten = false ∧ b.response.isWritten = false := by
  simp only [Block.walking, Bool.and_eq_true, Reg.satisfies_iff, decide_eq_true_eq, bne_iff_ne, Bool.not_eq_true',
    schemeRow_levels]
  constructor
  · rintro ⟨⟨⟨⟨⟨scheme, h1, h2, va, h3, h4⟩, tc, h5, h6⟩, base, h7, h8⟩, h9⟩, h10⟩
    exact ⟨scheme, tc, va, base, h1, h5, h3, h7, h2, h4, h6, h8, h9, h10⟩
  · rintro ⟨scheme, tc, va, base, h1, h5, h3, h7, h2, h4, h6, h8, h9, h10⟩
    exact ⟨⟨⟨⟨⟨scheme, h1, h2, va, h3, h4⟩, tc, h5, h6⟩, base, h7, h8⟩, h9⟩, h10⟩

/-- Every frame's base is a table base (R25, R34). -/
theorem tableBase_frameBase (scheme : Scheme) (ppn : BitVec 44) : tableBase (frameBase (schemeRow scheme) ppn) = true := by
  have := ppn.isLt
  simp only [tableBase, Bool.and_eq_true, decide_eq_true_eq, frameBase_toNat]
  omega

/-- The two names of a PTE's address agree (R136). -/
theorem pteAddress_eq_entryAddress (scheme : Scheme) (base : Word) (segment : BitVec 9) :
    Machine.pteAddress (schemeRow scheme) base segment = entryAddress base segment := by
  rw [Machine.pteAddress, schemeRow_entrySize]
  rfl

/-- A level's step, from a state that is about to take it (R135). -/
theorem step_of_atLevel {s : State} {scheme : Scheme} {i : Nat} {base : Word} {segment : BitVec 9}
    (h : s.atLevel scheme i base segment) :
    step s = .next (s.levelTaken (entryAddress base segment)
      (s.cur.block.afterAnswer (schemeRow scheme) i (s.accessor.answer (entryAddress base segment)))) := by
  obtain ⟨hb, hc, h1, h2, ⟨vpn, h3, h4⟩, h0⟩ := h
  have hc' : s.turnTaken.cur.block.ctrl = .walkingLevel i := hc
  rw [step_of_blockTurn hb, blockStep, hc']
  have hw := walkStep_of_written (s := s.turnTaken) h0 h1 h2 h3 h4
  simp only [hw, pteAddress_eq_entryAddress, schemeRow_entrySize]
  rfl

end Sys2Proof.Machine
end

