-- ==== Sys2Proof/Tests/Slice0.lean ====
section
/-! SUPPORT. Tests of single operations and steps on small states, and a witness for the hypotheses of each statement.
Expected values are those of spec/95_test_vectors.md (the vector is named) or worked out by hand from the rule named. -/

namespace Sys2Proof.Tests

open Sys2Proof.Machine

/-! ## Small states -/

/-- The eight little-endian bytes of a word at an address. -/
def cells (addr word : Nat) : Memory := (List.range 8).map fun k => (addr + k, BitVec.ofNat 8 (word / 256 ^ k))

/-- A machine with a block, a memory and waiting requests, left alone. -/
def machine (block : Block) (mem : Memory) (requests : List Descriptor) : State :=
  { State.reset with
    cur := { Agent.reset with block := block, requests := requests }
    accessor := { State.reset.accessor with mem := mem } }

/-- An idle machine with a TC value and waiting requests. -/
def idle (tc : Word) (requests : List Descriptor) : State :=
  { machine Block.reset [] requests with tcRegister := tc }

/-- A block about to read the PTE of level `i` in the table at `base`. -/
def walkingBlock (scheme : Scheme) (i : Nat) (va base : Word) : Block :=
  { Block.reset with
    ctrl := .walkingLevel i
    scheme := .holds scheme
    tc := .holds 0x8000000000080000#64
    va := .holds va
    vpn := .holds (vpnSegments (schemeRow scheme) va)
    a := .holds base }

/-- A block that has found the leaf `pte` at level `i`. -/
def leafBlock (scheme : Scheme) (i : Nat) (va pte : Word) : Block :=
  { walkingBlock scheme i va 0x80000000#64 with ctrl := .leafFound i, pte := .holds pte }

/-- A walk step on one PTE at the table's entry for the address. -/
def walkOn (scheme : Scheme) (i : Nat) (va base : Word) (entry pte : Nat) : State :=
  machine (walkingBlock scheme i va base) (cells entry pte) []

/-- The sequencer after a step, where there is a next state. -/
def ctrlAfter (o : Host.Outcome State Fault Refusal) : Option Ctrl :=
  match o with
  | .next t => some t.cur.block.ctrl
  | _ => none

/-- What a step has delivered, where there is a next state. -/
def deliveredAfter (o : Host.Outcome State Fault Refusal) : Option (List Result) :=
  match o with
  | .next t => some t.cur.delivered
  | _ => none

/-- The response register after a step, where there is a next state. -/
def responseAfter (o : Host.Outcome State Fault Refusal) : Option (Reg Response) :=
  match o with
  | .next t => some t.cur.block.response
  | _ => none

/-! ## Well-formedness: each check refuses an ill-formed term -/

theorem test_wf_selector : (Instr.schemeLookup 2).wf = false := by decide

theorem test_wf_selector_top : (Instr.schemeLookup 1).wf = true := by decide

/-- A row with two widths for three levels (R31 (a)). -/
theorem test_row_length :
    SchemeConfig.admitted ⟨8, 3, 4096, 9, 39, [9, 35]⟩ = false ∧ SchemeConfig.lengthOk ⟨8, 3, 4096, 9, 39, [9, 35]⟩ = false := by
  decide

/-- A row whose widths sum to 45 (R31 (b)). -/
theorem test_row_sum :
    SchemeConfig.admitted ⟨8, 3, 4096, 9, 39, [9, 9, 27]⟩ = false ∧ SchemeConfig.sumOk ⟨8, 3, 4096, 9, 39, [9, 9, 27]⟩ = false := by
  decide

/-- A row whose virtual address has the wrong width (R31 (c)). -/
theorem test_row_vaWidth : SchemeConfig.vaWidthOk ⟨8, 3, 4096, 9, 48, [9, 9, 26]⟩ = false := by decide

/-- A row with a segment of 10 bits below the top level (R31 (d)). -/
theorem test_row_segments :
    SchemeConfig.admitted ⟨8, 3, 4096, 9, 39, [10, 9, 25]⟩ = false
      ∧ SchemeConfig.segmentsOk ⟨8, 3, 4096, 9, 39, [10, 9, 25]⟩ = false := by
  decide

/-- A row with no level (R29). -/
theorem test_row_levels : SchemeConfig.admitted ⟨8, 0, 4096, 9, 12, []⟩ = false := by decide

theorem test_rows_admitted : (schemeRow .sv39).admitted = true ∧ (schemeRow .sv48).admitted = true := by decide

/-! ## Decoding: op codes and operands as 30_encoding.md R76 gives them -/

theorem test_decode_bfGet :
    decode ⟨0x01#8, [.u64 0x48D1407#64, .nat 10, .nat 44]⟩ = .ok (.bfGet 0x48D1407#64 10 44) := rfl

theorem test_decode_bfSet :
    decode ⟨0x02#8, [.u64 0#64, .nat 60, .nat 4, .nat 9]⟩ = .ok (.bfSet 0#64 60 4 9) := rfl

theorem test_decode_bfValue : decode ⟨0x03#8, [.u64 5#64]⟩ = .ok (.bfValue 5#64) := rfl

theorem test_decode_tcDecode :
    decode ⟨0x10#8, [.u64 0x9000000000080000#64]⟩ = .ok (.tcDecode 0x9000000000080000#64) := rfl

theorem test_decode_pteDecode :
    decode ⟨0x11#8, [.byte 0x07#8, .byte 0x14#8, .byte 0x8D#8, .byte 0x04#8, .byte 0#8, .byte 1#8, .byte 2#8, .byte 3#8]⟩
      = .ok (.pteDecode 0x07#8 0x14#8 0x8D#8 0x04#8 0#8 1#8 2#8 3#8) := rfl

theorem test_decode_schemeLookup : decode ⟨0x12#8, [.selector 1]⟩ = .ok (.schemeLookup 1) := rfl

theorem test_decode_translateSv39 : decode ⟨0x20#8, [.u64 0xABC#64]⟩ = .ok (.translateSv39 0xABC#64) := rfl

theorem test_decode_translateSv48 : decode ⟨0x21#8, [.u64 0xABC#64]⟩ = .ok (.translateSv48 0xABC#64) := rfl

/-- The bounds of the unassigned ranges (R78). -/
theorem test_decode_unassigned :
    ([0x00#8, 0x04#8, 0x0F#8, 0x13#8, 0x1F#8, 0x22#8, 0xFF#8].map fun op => decode ⟨op, []⟩)
      = [.error (.unassignedOp 0x00#8), .error (.unassignedOp 0x04#8), .error (.unassignedOp 0x0F#8),
         .error (.unassignedOp 0x13#8), .error (.unassignedOp 0x1F#8), .error (.unassignedOp 0x22#8),
         .error (.unassignedOp 0xFF#8)] := rfl

/-- T15: "Selector 2 is refused". -/
theorem test_decode_selector : decode ⟨0x12#8, [.selector 2]⟩ = .error (.unassignedSelector 2) := rfl

/-- An operation has one length (R76). -/
theorem test_decode_length :
    decode ⟨0x01#8, [.u64 0#64, .nat 0]⟩ = .error (.malformedOperands .bfGet) := rfl

theorem test_tableWord :
    ([0x01, 0x02, 0x03, 0x10, 0x11, 0x12, 0x20, 0x21, 0x22].map fun w => (decodeTableWord 8 w).map Instr.opcode)
      = [some .bfGet, some .bfSet, some .bfValue, some .tcDecode, some .pteDecode, some .schemeLookup, some .translateSv39,
         some .translateSv48, none] := by decide

/-- The low bit of a TRANSLATE code is the scheme's selector (R76). -/
theorem test_translate_selector (va : Word) (scheme : Scheme) :
    (encode (translateInstr scheme va)).op = 0x20#8 ||| BitVec.ofNat 8 (schemeSelector scheme) := by
  cases scheme <;> rfl

/-! ## The datapath operations -/

/-- T10: the range ends at bit 64. -/
theorem test_bfGet_top :
    deliveredAfter (exec (.bfGet 0xFEDCBA9876543210#64 60 4) (idle 0 [])) = some [.word 0xF#64] := by decide

/-- T10: 65 > 64. -/
theorem test_bfGet_range :
    deliveredAfter (exec (.bfGet 0xFEDCBA9876543210#64 63 2) (idle 0 [])) = some [.rangeViolation] := by decide

/-- T11: the value is truncated to 8 bits. -/
theorem test_bfSet_truncates :
    deliveredAfter (exec (.bfSet 0xFFFFFFFFFFFFFFFF#64 8 8 0x1AB) (idle 0 [])) = some [.word 0xFFFFFFFFFFFFABFF#64] := by
  decide

/-- T11: the whole word, from a value wider than 64 bits. -/
theorem test_bfSet_whole :
    deliveredAfter (exec (.bfSet 0#64 0 64 0x400000000000000005) (idle 0 [])) = some [.word 0x5#64] := by decide

/-- T12. -/
theorem test_bfValue :
    deliveredAfter (exec (.bfValue 0x123456789ABCDEF0#64) (idle 0 [])) = some [.word 0x123456789ABCDEF0#64] := by decide

/-- T13. -/
theorem test_tcDecode :
    deliveredAfter (exec (.tcDecode 0x9ABCD00012345678#64) (idle 0 []))
      = some [.tcFields ⟨0x9#4, 0xABCD#16, 0x12345678#44⟩] := by decide

/-- T14: the second row of leaves, with X and without W. -/
theorem test_pteDecode :
    deliveredAfter (exec (.pteDecode 0x0B#8 0x78#8 0xF3#8 0x2A#8 0#8 0#8 0#8 0#8) (idle 0 []))
      = some [.pteFields ⟨true, true, false, true, 0xABCDE#44, 0x2AF3780B#64⟩] := by decide

/-- T14: all ones; the undecoded bits stay in the word. -/
theorem test_pteDecode_ones :
    deliveredAfter (exec (.pteDecode 0xFF#8 0xFF#8 0xFF#8 0xFF#8 0xFF#8 0xFF#8 0xFF#8 0xFF#8) (idle 0 []))
      = some [.pteFields ⟨true, true, true, true, 0xFFFFFFFFFFF#44, 0xFFFFFFFFFFFFFFFF#64⟩] := by decide

/-- T15. -/
theorem test_schemeLookup_sv48 :
    deliveredAfter (exec (.schemeLookup 1) (idle 0 [])) = some [.schemeRow ⟨8, 4, 4096, 9, 48, [9, 9, 9, 17]⟩] := by decide

/-- T15: selector 2 is refused. -/
theorem test_schemeLookup_refused : exec (.schemeLookup 2) (idle 0 []) = .refused (.badSelector 2) := rfl

/-- R71: packing the fields of root[1] of image M1 gives its word. -/
theorem test_packPte : packPte true true true true 0x40000#44 = 0x1000000F#64 := by decide

/-- R72: the PPN segments of Sv39 tile 0x3FFFFFFFFFFC09's PPN, which is all ones. -/
theorem test_ppnSegments :
    (List.range 3).map (ppnSegment (schemeRow .sv39) 0x3FFFFFFFFFFC09#64) = [0x1FF#64, 0x1FF#64, 0x3FFFFFF#64] := by decide

/-- R17: 2 MiB, 1 GiB and 512 GiB. -/
theorem test_pageBytes :
    [1, 2, 3].map (pageBytes (schemeRow .sv48)) = [2097152, 1073741824, 549755813888] := by decide

/-! ## Translation, one step at a time -/

/-- T31: the start of the walk from 0x80000000. -/
theorem test_translateSv39_start :
    ctrlAfter (exec (.translateSv39 0xABC#64) (idle 0x8000000000080000#64 [])) = some (.walkingLevel 2) := by decide

/-- T3K: mode 0, all other bits of the TC value 1. -/
theorem test_translateSv39_disabled :
    responseAfter (exec (.translateSv39 0xABC#64) (idle 0x0FFFFFFFFFFFFFFF#64 []))
      = some (.holds (.fault .translationDisabled)) := by decide

/-- T40: four levels. -/
theorem test_translateSv48_start :
    ctrlAfter (exec (.translateSv48 0x8040201ABC#64) (idle 0x9000000000080000#64 [])) = some (.walkingLevel 3) := by decide

/-- R134: the segments of T40's address are all 1. -/
theorem test_translateSv48_vpn : vpnSegments (schemeRow .sv48) 0x8040201ABC#64 = [1#9, 1#9, 1#9, 1#9] := by decide

/-- T31: root[0] is a pointer to 0x80001000. -/
theorem test_walk_pointer :
    step (walkOn .sv39 2 0xABC#64 0x80000000#64 0x80000000 0x20000401)
      = .next ((walkOn .sv39 2 0xABC#64 0x80000000#64 0x80000000 0x20000401).levelTaken 0x80000000#64
          { walkingBlock .sv39 1 0xABC#64 0x80001000#64 with pte := .holds 0x20000401#64 }) := rfl

/-- T33: a pointer at level 0 exhausts the walk. -/
theorem test_walk_exhausted :
    ctrlAfter (step (walkOn .sv39 0 0x2000#64 0x80002000#64 0x80002010 0x20001001)) = some (.faulted .invalidEntry) := by
  decide

/-- T35: W and X without R is reserved, not a leaf. -/
theorem test_walk_reserved :
    ctrlAfter (step (walkOn .sv39 0 0x4000#64 0x80002000#64 0x80002020 0x48D140D)) = some (.faulted .invalidEntry) := by
  decide

/-- T3F: V = 0 with R = 1 is not a leaf. -/
theorem test_walk_invalid :
    ctrlAfter (step (walkOn .sv39 2 0x180000000#64 0x80000000#64 0x80000030 0x48D1402)) = some (.faulted .invalidEntry) := by
  decide

/-- T37: a leaf at level 1. -/
theorem test_walk_leaf :
    ctrlAfter (step (walkOn .sv39 1 0x212345#64 0x80001000#64 0x80001008 0x20080007)) = some (.leafFound 1) := by decide

/-- T3L: the root is not mapped; the accessor's error is passed on unchanged. -/
theorem test_walk_accessError :
    responseAfter (step (walkOn .sv39 2 0xABC#64 0x1000#64 0x80000000 0))
      = some (.holds (.fault (.accessError (Config.accessorError 0 0x1000#64)))) := rfl

/-- T32: the largest address, 2^56 - 1, execute only. -/
theorem test_leaf_page :
    responseAfter (step (machine (leafBlock .sv39 0 0x1FFF#64 0x3FFFFFFFFFFC09#64) [] []))
      = some (.holds (.ok 0xFFFFFFFFFFFFFF#64 ⟨false, false, true⟩)) := by decide

/-- T46: a 512 GiB superpage. -/
theorem test_leaf_512G :
    responseAfter (step (machine (leafBlock .sv48 3 0x8123456789#64 0x200000000B#64) [] []))
      = some (.holds (.ok 0x8123456789#64 ⟨true, false, true⟩)) := by decide

/-- T47: the low 27 bits of the PPN are 0x100. -/
theorem test_leaf_misaligned :
    responseAfter (step (machine (leafBlock .sv48 3 0x10000000000#64 0x2000040003#64) [] []))
      = some (.holds (.fault .misalignedSuperpage)) := by decide

/-- R110: the widest range of a walk, PTE [37,54) to PA [39,56), fits; a level past the table's would not. -/
theorem test_leaf_range :
    (∃ pa, assemble (schemeRow .sv48) 3 0#64 0xFFFFFFFFFFFFFFFF#64 = .ok pa)
      ∧ superpageAligned (schemeRow .sv48) 7 0#64 = .error .walkRangeViolation := ⟨⟨_, rfl⟩, rfl⟩

/-- The numeric codes of R170. -/
theorem test_codes :
    [Result.translation (.ok 0#64 ⟨true, true, true⟩), .translation (.fault .translationDisabled),
      .translation (.fault .invalidEntry), .translation (.fault .misalignedSuperpage),
      .translation (.fault (.accessError 7)), .rangeViolation].map Result.code = [0, 1, 2, 3, 4, 5] := by decide

/-- R199: a TC register with translation switched off by another's access is what the next call start samples. -/
theorem test_turn_setTc :
    step { idle 0x8000000000080000#64 [] with schedule := [.setTc 0x80000#64] } = .next (idle 0x80000#64 []) := rfl

/-- P4: the environment maps a byte between two steps. -/
theorem test_turn_writeByte :
    step { idle 0 [] with schedule := [.writeByte 0x80002028#64 0x03#8] }
      = .next { idle 0 [] with accessor := { State.reset.accessor with mem := [(0x80002028, 0x03#8)] } } := rfl

/-- R184: selecting another instance exchanges it with the one that was selected. -/
theorem test_turn_select :
    step { idle 0 [encode (.bfValue 0#64)] with parked := [Agent.reset], schedule := [.select 0] }
      = .next { idle 0 [] with parked := [(idle 0 [encode (.bfValue 0#64)]).cur] } := rfl

/-- The table word of TRANSLATE.SV39, placed after reset, runs: the external TC register's mode is 0 there (log 2). -/
theorem test_fetchWord :
    ctrlAfter (step (State.reset.withFetchWord 8 0x20)) = some .translationDisabled := by decide

theorem test_fetchWord_unassigned :
    step (State.reset.withFetchWord 8 0x22) = .refused (.badDescriptor (.unassignedOp 0x22#8)) := rfl

/-! ## The text syntax (R82) -/

/-- P1, line 5, and P2, line 1. -/
theorem test_text :
    parseLine "translate sv39, 0x140000000" = some (.translateSv39 0x140000000#64)
      ∧ parseLine "bf.set 0x0, 10, 44, 0x12345" = some (.bfSet 0#64 10 44 0x12345) := by decide

/-- P2, line 3. -/
theorem test_text_pte :
    parseLine "pte.decode 0x07, 0x14, 0x8D, 0x04, 0x00, 0x00, 0x00, 0x00"
      = some (.pteDecode 0x07#8 0x14#8 0x8D#8 0x04#8 0#8 0#8 0#8 0#8) := by decide

theorem test_text_none : parseLine "translate sv57, 0" = none ∧ parseLine "bf.value 0x10000000000000000" = none := by decide

theorem test_text_written :
    instrText (.translateSv48 0xabc#64) = "translate sv48, 0xabc" ∧ instrText (.schemeLookup 1) = "scheme sv48" := by decide

/-! ## Witnesses: concrete states and operands that meet each statement's hypotheses -/

/-- A walk of level 2 over a pointer, coherent, with the block's turn. -/
def onPointer : State := walkOn .sv39 2 0xABC#64 0x80000000#64 0x80000000 0x20000401

/-- A walk of level 0 over a pointer. -/
def onLastPointer : State := walkOn .sv39 0 0x2000#64 0x80002000#64 0x80002010 0x20001001

/-- A walk of level 1 over a leaf. -/
def onLeaf : State := walkOn .sv39 1 0x212345#64 0x80001000#64 0x80001008 0x20080007

/-- A walk of level 0 over a reserved entry. -/
def onReserved : State := walkOn .sv39 0 0x4000#64 0x80002000#64 0x80002020 0x48D140D

/-- A walk of level 2 over an entry with V = 0. -/
def onInvalid : State := walkOn .sv39 2 0x180000000#64 0x80000000#64 0x80000030 0x48D1402

/-- A walk of level 2 from a root that is not mapped. -/
def onUnmapped : State := walkOn .sv39 2 0xABC#64 0x1000#64 0x80000000 0

/-- A block that has found a misaligned leaf, and one with an aligned leaf at the top level. -/
def misaligned : State := machine (leafBlock .sv48 3 0x10000000000#64 0x2000040003#64) [] []

def aligned : State := machine (leafBlock .sv48 3 0x8123456789#64 0x200000000B#64) [] []

/-- A call that has ended in InvalidEntry. -/
def ended : State := machine (Block.reset.raise .invalidEntry) [] []

theorem witness_BfGetReturnsTheRange : (idle 0 []).cur.block.ctrl = .idle := rfl

theorem witness_BfSetReplacesTheRange :
    (idle 0 []).cur.block.ctrl = .idle ∧ 64 < 62 + 3 ∧ 60 + 4 ≤ 64 := by decide

theorem witness_BitfieldRoundTrip : 10 + 44 ≤ 64 ∧ (9 < 64 ∧ ¬ (10 ≤ 9 ∧ 9 < 10 + 44)) ∧ (54 < 64 ∧ ¬ (10 ≤ 54 ∧ 54 < 10 + 44)) := by
  decide

theorem witness_BfValueIsTheWholeWord : (idle 0 []).cur.block.ctrl = .idle := rfl

theorem witness_RangeViolationOnlyFromGetAndSet :
    (∃ t, exec (.bfGet 0#64 63 2) (idle 0 []) = .next t) ∧ ∃ t, exec (.bfSet 0#64 62 2 1) (idle 0 []) = .next t :=
  ⟨⟨_, rfl⟩, ⟨_, rfl⟩⟩

theorem witness_TcDecodeExtractsTheFields : (idle 0 []).cur.block.ctrl = .idle := rfl

theorem witness_PteDecodeExtractsTheFields : (idle 0 []).cur.block.ctrl = .idle := rfl

theorem witness_SchemeLookupGivesTheRow : (idle 0 []).cur.block.ctrl = .idle ∧ 2 ≤ 2 := by decide

theorem witness_SchemeRowsSatisfyTheInvariants :
    1 + 1 < (schemeRow .sv39).levels ∧ 2 < (schemeRow .sv39).levels ∧ 3 < (schemeRow .sv48).levels := by decide

theorem witness_DecodeOfEncode : (Instr.schemeLookup 1).wf = true := rfl

theorem witness_EncodeOfDecode : decode ⟨0x12#8, [.selector 1]⟩ = .ok (.schemeLookup 1) := rfl

theorem witness_UnassignedCodesAreRefused :
    0x22#8 ∉ [0x01#8, 0x02#8, 0x03#8, 0x10#8, 0x11#8, 0x12#8, 0x20#8, 0x21#8]
      ∧ (idle 0 [⟨0x22#8, []⟩]).blockTurn ∧ (idle 0 [⟨0x22#8, []⟩]).cur.block.ctrl = .idle :=
  ⟨by decide, .inl rfl, rfl⟩

theorem witness_StepRunsTheDecodedInstruction :
    ({ idle 0 [encode (.bfValue 5#64)] with schedule := [.block, .stall] } : State).blockTurn
      ∧ (idle 0 [encode (.bfValue 5#64)]).cur.block.ctrl = .idle ∧ decode (encode (.bfValue 5#64)) = .ok (.bfValue 5#64) :=
  ⟨.inr ⟨_, rfl⟩, rfl, rfl⟩

theorem witness_RequestsWaitUntilIdle :
    onPointer.cur.block.ctrl ≠ .idle ∧ onPointer.blockTurn ∧ (Instr.schemeLookup 1).wf = true
      ∧ ∃ t, step onPointer = .next t := ⟨by decide, .inl rfl, rfl, _, rfl⟩

theorem witness_IdleBlockWaitsForARequest :
    (idle 0 []).schedule = [] ∧ (idle 0 []).cur.block.ctrl = .idle ∧ (idle 0 []).cur.requests = [] := ⟨rfl, rfl, rfl⟩

theorem witness_OperationsLeaveTheRestUnchanged :
    (∃ t, exec (.tcDecode 0#64) (idle 0 []) = .next t)
      ∧ ∃ t, exec (translateInstr .sv48 0#64) (idle 0x9000000000080000#64 []) = .next t := ⟨⟨_, rfl⟩, ⟨_, rfl⟩⟩

theorem witness_ModeZeroDisablesTranslation :
    (idle 0x0FFFFFFFFFFFFFFF#64 []).cur.block.ctrl = .idle ∧ (idle 0x0FFFFFFFFFFFFFFF#64 []).tcRegister.toNat / 2 ^ 60 = 0 := by
  decide

theorem witness_NonzeroModeStartsTheWalk :
    (idle 0x1000000000000000#64 []).cur.block.ctrl = .idle ∧ (idle 0x1000000000000000#64 []).tcRegister.toNat / 2 ^ 60 ≠ 0 := by
  decide

/-- A step out of Idle, a step within a call, and a step that stays in Idle. -/
theorem witness_TcIsSampledOnlyAtCallStart :
    ((idle 0 [encode (.translateSv39 0#64)]).blockTurn ∧ (idle 0 [encode (.translateSv39 0#64)]).cur.block.ctrl = .idle
        ∧ ∃ t, step (idle 0 [encode (.translateSv39 0#64)]) = .next t ∧ t.cur.block.ctrl ≠ .idle)
      ∧ (onPointer.blockTurn ∧ onPointer.cur.block.ctrl ≠ .idle ∧ ∃ t, step onPointer = .next t)
      ∧ (idle 0 [encode (.bfValue 0#64)]).blockTurn
      ∧ ∃ t, step (idle 0 [encode (.bfValue 0#64)]) = .next t ∧ t.cur.block.ctrl = .idle :=
  ⟨⟨.inl rfl, rfl, _, rfl, by decide⟩, ⟨.inl rfl, by decide, _, rfl⟩, .inl rfl, _, rfl, rfl⟩

theorem witness_TcChangeDuringACallIsNotSeen :
    onPointer.blockTurn ∧ onPointer.cur.block.ctrl ≠ .idle ∧ ∃ t, step onPointer = .next t := ⟨.inl rfl, by decide, _, rfl⟩

theorem witness_OnlyRootPpnOfTheTcMatters :
    (0x8000000000080000#64 : Word).toNat / 2 ^ 60 ≠ 0 ∧ (0x1FFFF00000080000#64 : Word).toNat / 2 ^ 60 ≠ 0
      ∧ (0x8000000000080000#64 : Word).toNat % 2 ^ 44 = (0x1FFFF00000080000#64 : Word).toNat % 2 ^ 44 := by decide

theorem atLevel_onPointer : onPointer.atLevel .sv39 2 0x80000000#64 0#9 :=
  ⟨.inl rfl, rfl, rfl, rfl, ⟨_, rfl, by decide⟩, rfl⟩

theorem atLevel_onUnmapped : onUnmapped.atLevel .sv39 2 0x1000#64 0#9 :=
  ⟨.inl rfl, rfl, rfl, rfl, ⟨_, rfl, by decide⟩, rfl⟩

theorem atLevel_onReserved : onReserved.atLevel .sv39 0 0x80002000#64 4#9 :=
  ⟨.inl rfl, rfl, rfl, rfl, ⟨_, rfl, by decide⟩, rfl⟩

theorem atLevel_onInvalid : onInvalid.atLevel .sv39 2 0x80000000#64 6#9 :=
  ⟨.inl rfl, rfl, rfl, rfl, ⟨_, rfl, by decide⟩, rfl⟩

theorem atLevel_onLeaf : onLeaf.atLevel .sv39 1 0x80001000#64 1#9 :=
  ⟨.inl rfl, rfl, rfl, rfl, ⟨_, rfl, by decide⟩, rfl⟩

theorem atLevel_onLastPointer : onLastPointer.atLevel .sv39 0 0x80002000#64 2#9 :=
  ⟨.inl rfl, rfl, rfl, rfl, ⟨_, rfl, by decide⟩, rfl⟩

theorem witness_LevelReadsOnePteOrEndsInAccessError :
    (onUnmapped.atLevel .sv39 2 0x1000#64 0#9 ∧ ∃ e, onUnmapped.accessor.answer (entryAddress 0x1000#64 0#9) = .error e)
      ∧ onPointer.atLevel .sv39 2 0x80000000#64 0#9
      ∧ ∃ b, onPointer.accessor.answer (entryAddress 0x80000000#64 0#9) = .bytes b :=
  ⟨⟨atLevel_onUnmapped, _, rfl⟩, atLevel_onPointer, _, rfl⟩

theorem witness_InvalidPteEndsTheCall :
    (onInvalid.atLevel .sv39 2 0x80000000#64 6#9 ∧ ∃ b, onInvalid.accessor.answer (entryAddress 0x80000000#64 6#9) = .bytes b
        ∧ (refLe b).testBit 0 = false)
      ∧ onReserved.atLevel .sv39 0 0x80002000#64 4#9
      ∧ ∃ b, onReserved.accessor.answer (entryAddress 0x80002000#64 4#9) = .bytes b
        ∧ ((refLe b).testBit 1 = false ∧ (refLe b).testBit 2 = true) :=
  ⟨⟨atLevel_onInvalid, _, rfl, by decide⟩, atLevel_onReserved, _, rfl, by decide⟩

theorem witness_LeafPteStopsTheWalk :
    onLeaf.atLevel .sv39 1 0x80001000#64 1#9 ∧ ∃ b, onLeaf.accessor.answer (entryAddress 0x80001000#64 1#9) = .bytes b
      ∧ (refLe b).testBit 0 = true ∧ ¬ ((refLe b).testBit 1 = false ∧ (refLe b).testBit 2 = true)
      ∧ ((refLe b).testBit 1 = true ∨ (refLe b).testBit 3 = true) :=
  ⟨atLevel_onLeaf, _, rfl, by decide⟩

theorem witness_PointerPteDescendsOrExhaustsTheWalk :
    (onPointer.atLevel .sv39 (1 + 1) 0x80000000#64 0#9
        ∧ ∃ b, onPointer.accessor.answer (entryAddress 0x80000000#64 0#9) = .bytes b ∧ (refLe b).testBit 0 = true
          ∧ (refLe b).testBit 1 = false ∧ (refLe b).testBit 2 = false ∧ (refLe b).testBit 3 = false)
      ∧ onLastPointer.atLevel .sv39 0 0x80002000#64 2#9
      ∧ ∃ b, onLastPointer.accessor.answer (entryAddress 0x80002000#64 2#9) = .bytes b ∧ (refLe b).testBit 0 = true
          ∧ (refLe b).testBit 1 = false ∧ (refLe b).testBit 2 = false ∧ (refLe b).testBit 3 = false :=
  ⟨⟨atLevel_onPointer, _, rfl, by decide⟩, atLevel_onLastPointer, _, rfl, by decide⟩

/-- Each of the three causes of R171, in a coherent state that steps. -/
theorem witness_InvalidEntryHasThreeCauses :
    ([onInvalid, onReserved, onLastPointer].map fun s => (s.coherent, ctrlAfter (step s)))
      = [(true, some (.faulted .invalidEntry)), (true, some (.faulted .invalidEntry)), (true, some (.faulted .invalidEntry))]
      ∧ onInvalid.blockTurn := ⟨by decide, .inl rfl⟩

theorem witness_MisalignedSuperpageHasOneCause :
    misaligned.coherent = true ∧ misaligned.blockTurn ∧ ∃ t, step misaligned = .next t := ⟨by decide, .inl rfl, _, rfl⟩

theorem witness_AccessErrorHasOneCause :
    onUnmapped.coherent = true ∧ onUnmapped.blockTurn ∧ ∃ t, step onUnmapped = .next t := ⟨by decide, .inl rfl, _, rfl⟩

theorem witness_TranslationDisabledHasOneCause :
    (idle 0 [encode (.translateSv48 0#64)]).blockTurn
      ∧ ctrlAfter (step (idle 0 [encode (.translateSv48 0#64)])) = some .translationDisabled := ⟨.inl rfl, by decide⟩

theorem witness_UnansweredReadIsStuck :
    ({ onPointer with accessor := { onPointer.accessor with stalled := true } } : State).schedule = []
      ∧ onPointer.cur.block.ctrl = .walkingLevel 2 := ⟨rfl, rfl⟩

theorem witness_MisalignedSuperpageIsReported :
    (misaligned.atLeaf .sv48 3 0x2000040003#64 0x10000000000#64
        ∧ (0x2000040003#64 : Word).toNat / 2 ^ 10 % 2 ^ (9 * 3) ≠ 0)
      ∧ (machine (leafBlock .sv39 0 0x1FFF#64 0x3FFFFFFFFFFC09#64) [] []).atLeaf .sv39 0 0x3FFFFFFFFFFC09#64 0x1FFF#64 :=
  ⟨⟨⟨.inl rfl, rfl, rfl, by decide, rfl, rfl⟩, by decide⟩, .inl rfl, rfl, rfl, by decide, rfl, rfl⟩

theorem witness_AlignedLeafGivesTheAddress :
    aligned.atLeaf .sv48 3 0x200000000B#64 0x8123456789#64 ∧ (0x200000000B#64 : Word).toNat / 2 ^ 10 % 2 ^ (9 * 3) = 0 :=
  ⟨⟨.inl rfl, rfl, rfl, by decide, rfl, rfl⟩, by decide⟩

theorem witness_AssembledRangesTileTheAddress : 2 < refLevels .sv39 ∧ 3 < refLevels .sv48 := by decide

theorem witness_IgnoredBitsDoNotMatter :
    2 < refLevels .sv39 ∧ samePteBits 0x2AF007#64 0xFFC00000002AF3F7#64 ∧ sameVaBits .sv39 0xABC#64 0xFFFFFF8000000ABC#64 := by
  refine ⟨by decide, ?_, ?_⟩
  · intro k hk
    have hlt : k < 54 := by omega
    interval_cases k <;> first | decide | omega
  · intro k hk
    have hlt : k < 39 := hk
    interval_cases k <;> decide

theorem witness_ResponseIsDeliveredAndTheBlockIsIdle :
    ended.blockTurn ∧ ended.cur.block.ctrl.terminal = true
      ∧ ended.cur.block.response = .holds (.fault .invalidEntry) := ⟨.inl rfl, rfl, rfl⟩

theorem witness_ResetAbandonsTheCall :
    ({ onPointer with schedule := [.reset] } : State).schedule = .reset :: [] := rfl

theorem witness_EnvironmentTurnsLeaveTheCallAlone :
    ({ onPointer with schedule := [.setTc 0#64] } : State).schedule = .setTc 0#64 :: [] ∧ Turn.setTc 0#64 ≠ .block
      ∧ Turn.setTc 0#64 ≠ .reset ∧ ∀ k, Turn.setTc 0#64 ≠ .select k := ⟨rfl, by decide, by decide, by simp⟩

theorem witness_SequencerMovesOnlyByTheTable : aligned.blockTurn ∧ ctrlAfter (step aligned) = some .done :=
  ⟨.inl rfl, by decide⟩

theorem witness_TheBlockWritesNothingOutside : onPointer.blockTurn ∧ ∃ t, step onPointer = .next t := ⟨.inl rfl, _, rfl⟩

theorem witness_ReadsAreAlignedAndInTheTable :
    onPointer.coherent = true ∧ onPointer.blockTurn ∧ ∃ t, step onPointer = .next t := ⟨by decide, .inl rfl, _, rfl⟩

/-- A machine about to take the request of R160's example, with its TC value and its three PTEs in memory. -/
def exampleCall : State :=
  { machine Block.reset (cells 0x80000008 0x20000401 ++ cells 0x80001008 0x20000801 ++ cells 0x80002008 0x048D1407)
      [encode (translateInstr .sv39 0x40201ABC#64)] with
    tcRegister := 0x8000000000080000#64 }

/-- A step that reads, one that delivers and one that samples. -/
theorem witness_EarlierCallsDoNotMatter :
    (onPointer.blockTurn ∧ ∃ t, step onPointer = .next t) ∧ (ended.blockTurn ∧ ∃ t, step ended = .next t)
      ∧ exampleCall.blockTurn ∧ ∃ t, step exampleCall = .next t :=
  ⟨⟨.inl rfl, _, rfl⟩, ⟨.inl rfl, _, rfl⟩, .inl rfl, _, rfl⟩

theorem witness_InstancesAreIndependent : onPointer.blockTurn ∧ ∃ t, step onPointer = .next t := ⟨.inl rfl, _, rfl⟩

theorem witness_CoherenceIsKept : aligned.coherent = true ∧ ∃ t, step aligned = .next t := ⟨by decide, _, rfl⟩

/-- A level's step, and an idle block that starts a call, with other values in registers not written. -/
theorem witness_UnwrittenRegistersAreNotRead :
    (onPointer.coherent = true ∧ onPointer.blockTurn
        ∧ onPointer.cur.block.agrees { onPointer.cur.block with pte := .unwritten 5#64, pa := .unwritten 7#64 }
        ∧ ∃ t, step onPointer = .next t)
      ∧ exampleCall.coherent = true ∧ exampleCall.blockTurn
      ∧ exampleCall.cur.block.agrees { exampleCall.cur.block with a := .unwritten 9#64, scheme := .unwritten .sv48 }
      ∧ ∃ t, step exampleCall = .next t :=
  ⟨⟨by decide, .inl rfl, ⟨rfl, rfl, rfl, rfl, trivial, trivial, rfl, rfl, trivial⟩, _, rfl⟩, by decide, .inl rfl,
    ⟨rfl, trivial, trivial, trivial, trivial, trivial, trivial, trivial, trivial⟩, _, rfl⟩

theorem witness_CoherentStatesNeverFault : aligned.coherent = true ∧ ended.coherent = true ∧ onPointer.coherent = true := by
  decide

theorem witness_CallsEndInBoundedSteps :
    onPointer.coherent = true ∧ onPointer.schedule = [] ∧ onPointer.accessor.stalled = false
      ∧ onPointer.cur.block.ctrl = .walkingLevel 2 := ⟨by decide, rfl, rfl, rfl⟩

/-- The response is that of R160's example (T30). -/
theorem witness_CallGivesTheResponseOfTheAlgorithm :
    exampleCall.cur.block.ctrl = .idle ∧ exampleCall.schedule = [] ∧ exampleCall.accessor.stalled = false
      ∧ exampleCall.cur.requests = encode (translateInstr .sv39 0x40201ABC#64) :: []
      ∧ (refTranslate .sv39 0x40201ABC#64 exampleCall.tcRegister exampleCall.accessor.undisturbed).1
          = .ok 0x12345ABC#64 ⟨true, true, false⟩ := ⟨rfl, rfl, rfl, rfl, by decide +kernel⟩

/-- The bytes of the three PTEs of R160's example. -/
def exampleAnswers : List Answer :=
  [.bytes ⟨0x01#8, 0x04#8, 0x00#8, 0x20#8, 0#8, 0#8, 0#8, 0#8⟩, .bytes ⟨0x01#8, 0x08#8, 0x00#8, 0x20#8, 0#8, 0#8, 0#8, 0#8⟩,
   .bytes ⟨0x07#8, 0x14#8, 0x8D#8, 0x04#8, 0#8, 0#8, 0#8, 0#8⟩]

/-- A nonzero mode and answered reads (R160's example, from no memory), and mode 0. -/
theorem witness_ResponseIsAFunctionOfTheAnswers :
    (({ exampleCall with schedule := oracleTurns exampleAnswers } : State).cur.block = Block.reset
        ∧ exampleCall.cur.requests = [encode (translateInstr .sv39 0x40201ABC#64)]
        ∧ exampleCall.accessor.stalled = false ∧ exampleAnswers.length = refLevels .sv39
        ∧ (refTranslate .sv39 0x40201ABC#64 exampleCall.tcRegister (oracle exampleAnswers)).1
            = .ok 0x12345ABC#64 ⟨true, true, false⟩)
      ∧ (refTranslate .sv39 0x40201ABC#64 0#64 (oracle exampleAnswers)).1 = .fault .translationDisabled :=
  ⟨⟨rfl, rfl, rfl, rfl, by decide⟩, rfl⟩

theorem witness_AccessorAnswersTheBytesOfMemory :
    onPointer.accessor.forced = none ∧ (∃ b, onPointer.accessor.answer 0x80000000#64 = .bytes b)
      ∧ 7 < 8 ∧ onPointer.accessor.mem.read (0x80000001 + 7) = none := ⟨rfl, ⟨_, rfl⟩, by decide, rfl⟩

theorem witness_MemoryReadsWhatWasWritten :
    Memory.wf [(3, 1#8), (5, 2#8)] = true ∧ 3 ≠ 5 := by decide

end Sys2Proof.Tests
end

section
/-! SUPPORT. Rules that proofs share: what an operation can be, the block's step by the state of the sequencer, the
start of a call, the leaf. -/

namespace Sys2Proof.Machine

/-! ## Operations -/

/-- Every operation starts a call, or delivers a result in which the state takes no part, or is refused in every state
(R76). -/
theorem exec_shape (i : Instr) :
    (∃ scheme va, i = translateInstr scheme va) ∨ (∃ r, ∀ s, exec i s = s.accept (s.deliver r)) ∨
      ∃ e, ∀ s, exec i s = .refused e := by
  cases i with
  | translateSv39 va => exact .inl ⟨.sv39, va, rfl⟩
  | translateSv48 va => exact .inl ⟨.sv48, va, rfl⟩
  | schemeLookup n =>
    by_cases hn : n < 2
    · obtain ⟨scheme, hs⟩ := schemeOfSelector_lt hn
      exact .inr (.inl ⟨.schemeRow (schemeRow scheme), fun s => by simp only [exec, execSchemeLookup, hs]⟩)
    · have hs := schemeOfSelector_ge (Nat.le_of_not_lt hn)
      exact .inr (.inr ⟨.badSelector n, fun s => by simp only [exec, execSchemeLookup, hs]⟩)
  | bfGet w b n => exact .inr (.inl ⟨_, fun _ => rfl⟩)
  | bfSet w b n v => exact .inr (.inl ⟨_, fun _ => rfl⟩)
  | bfValue w => exact .inr (.inl ⟨_, fun _ => rfl⟩)
  | tcDecode raw => exact .inr (.inl ⟨_, fun _ => rfl⟩)
  | pteDecode b0 b1 b2 b3 b4 b5 b6 b7 => exact .inr (.inl ⟨_, fun _ => rfl⟩)

/-- A call start in Idle: one TC sample, and the block at the start of the call (R133). -/
theorem exec_translateInstr_of_idle (scheme : Scheme) (va : Word) {s : State} (h : s.cur.block.ctrl = .idle) :
    exec (translateInstr scheme va) s =
      .next ((s.sampled s.tcRegister).withBlock (s.cur.block.startCall scheme va s.tcRegister)) := by
  rw [exec_translateInstr, startTranslation, State.accept_of_idle _ h]

/-! ## The start of a call -/

/-- With a nonzero mode a walk starts (R23, R134). -/
theorem Block.startCall_of_accepted {tc : Word} (h : tc.toNat / 2 ^ 60 ≠ 0) (b : Block) (scheme : Scheme) (va : Word) :
    b.startCall scheme va tc =
      ({ b with scheme := .holds scheme, tc := .holds tc } : Block).initWalk (schemeRow scheme) va tc := by
  simp only [Block.startCall, (modeAccepted_iff scheme tc).mpr h, if_true]

/-- With mode 0 the call ends at once (R174). -/
theorem Block.startCall_of_modeZero {tc : Word} (h : tc.toNat / 2 ^ 60 = 0) (b : Block) (scheme : Scheme) (va : Word) :
    b.startCall scheme va tc = ({ b with scheme := .holds scheme, tc := .holds tc } : Block).disable := by
  have hm : ¬ modeAccepted scheme (tcMode tc) = true := fun ha => (modeAccepted_iff scheme tc).mp ha h
  simp only [Block.startCall, hm, if_false, Bool.false_eq_true]

theorem Block.startCall_ctrl_ne_idle (b : Block) (scheme : Scheme) (va tc : Word) :
    (b.startCall scheme va tc).ctrl ≠ .idle := by
  by_cases h : tc.toNat / 2 ^ 60 = 0
  · simp [Block.startCall_of_modeZero h]
  · simp [Block.startCall_of_accepted h, Block.initWalk]

@[simp] theorem Block.startCall_tc (b : Block) (scheme : Scheme) (va tc : Word) :
    (b.startCall scheme va tc).tc = .holds tc := by
  by_cases h : tc.toNat / 2 ^ 60 = 0
  · rw [Block.startCall_of_modeZero h]; rfl
  · rw [Block.startCall_of_accepted h]; rfl

@[simp] theorem Block.startCall_pte (b : Block) (scheme : Scheme) (va tc : Word) :
    (b.startCall scheme va tc).pte = b.pte := by
  by_cases h : tc.toNat / 2 ^ 60 = 0
  · rw [Block.startCall_of_modeZero h]; rfl
  · rw [Block.startCall_of_accepted h]; rfl

@[simp] theorem Block.startCall_pa (b : Block) (scheme : Scheme) (va tc : Word) :
    (b.startCall scheme va tc).pa = b.pa := by
  by_cases h : tc.toNat / 2 ^ 60 = 0
  · rw [Block.startCall_of_modeZero h]; rfl
  · rw [Block.startCall_of_accepted h]; rfl

/-! ## The block's step, one equation per state of the sequencer (R132) -/

theorem blockStep_of_waiting {s : State} (hc : s.cur.block.ctrl = .idle) (hr : s.cur.requests = []) :
    blockStep s = .next s := by
  simp only [blockStep, hc, State.intake_of_nil hr]

theorem blockStep_of_bad {s : State} {d : Descriptor} {rest : List Descriptor} {e : DecodeError}
    (hc : s.cur.block.ctrl = .idle) (hr : s.cur.requests = d :: rest) (hd : decode d = .error e) :
    blockStep s = .refused (.badDescriptor e) := by
  simp only [blockStep, hc, State.intake_of_error hr hd]

theorem blockStep_of_operation {s : State} {d : Descriptor} {rest : List Descriptor} {i : Instr}
    (hc : s.cur.block.ctrl = .idle) (hr : s.cur.requests = d :: rest) (hd : decode d = .ok i) :
    blockStep s = exec i { s with cur := { s.cur with requests := rest } } := by
  simp only [blockStep, hc, State.intake_of_ok hr hd]

theorem blockStep_of_walkingLevel {s : State} {i : Nat} (hc : s.cur.block.ctrl = .walkingLevel i) :
    blockStep s = walkStep i s := by
  simp only [blockStep, hc]

theorem blockStep_of_leafFound {s : State} {i : Nat} (hc : s.cur.block.ctrl = .leafFound i) :
    blockStep s = leafStep i s := by
  simp only [blockStep, hc]

theorem blockStep_of_terminal {s : State} (hc : s.cur.block.ctrl.terminal = true) :
    blockStep s = .next s.deliverResponse := by
  cases h : s.cur.block.ctrl with
  | idle => simp [h, Ctrl.terminal] at hc
  | walkingLevel i => simp [h, Ctrl.terminal] at hc
  | leafFound i => simp [h, Ctrl.terminal] at hc
  | done => simp only [blockStep, h]
  | faulted reason => simp only [blockStep, h]
  | translationDisabled => simp only [blockStep, h]

/-- A level's step whose read is answered (R135). -/
theorem walkStep_of_answered {s : State} {i : Nat} (h : s.accessor.stalled = false) :
    walkStep i s = .next ((s.afterRead (s.cur.block.pteAddress i) s.cur.block.config.entrySize).withBlock
      (s.cur.block.afterAnswer s.cur.block.config i (s.accessor.answer (s.cur.block.pteAddress i)))) :=
  walkStep_next.mpr (.inr ⟨h, rfl⟩)

theorem leafStep_of_ok {s : State} {i : Nat} {b : Block} (h : s.cur.block.leaf i = .ok b) :
    leafStep i s = .next (s.withBlock b) :=
  leafStep_next.mpr ⟨b, h, rfl⟩

/-! ## The leaf -/

/-- The alignment check at a level of the scheme is about the PPN bits below that level, and its range fits (R110,
R145). -/
theorem superpageAligned_eq {scheme : Scheme} {i : Nat} (hi : i < refLevels scheme) (pte : Word) :
    superpageAligned (schemeRow scheme) i pte = .ok (decide (pte.toNat / 2 ^ 10 % 2 ^ (9 * i) = 0)) := by
  have h4 := refLevels_le scheme
  by_cases h0 : i = 0
  · subst h0
    simp [superpageAligned, Nat.mod_one]
  · have hfit : 10 + i * 9 ≤ 64 := by omega
    simp only [superpageAligned, h0, if_false, schemeRow_vpnWidth, bfGet_of_le pte hfit, inRange, bind, Except.bind,
      pure, Except.pure]
    congr 1
    rw [Nat.mul_comm 9 i, ← field_toNat, Bool.eq_iff_iff, decide_eq_true_iff, beq_iff_eq, BitVec.toNat_eq]
    rfl

/-- A `set` of no bits changes nothing (R102, D6). -/
theorem withField_size_zero (word : Word) (bitIndex value : Nat) : withField word bitIndex 0 value = word := by
  apply BitVec.eq_of_getLsbD_eq
  intro k hk
  rw [withField_getLsbD _ _ _ _ _ hk, if_neg (by omega)]

/-- The address that the three copies of R147 to R149 make at level `i`, with every range written out. -/
def assembled (i : Nat) (va pte : Word) : Word :=
  let offset := withField 0#64 0 12 (field va 0 12).toNat
  let through := withField offset 12 (i * 9) (field va 12 (i * 9)).toNat
  withField through (12 + 9 * i) (44 - 9 * i) (field pte (10 + 9 * i) (44 - 9 * i)).toNat

/-- At a level of the scheme no range of the assembly fails (R110). -/
theorem assemble_eq {scheme : Scheme} {i : Nat} (hi : i < refLevels scheme) (va pte : Word) :
    assemble (schemeRow scheme) i va pte = .ok (assembled i va pte) := by
  have h4 := refLevels_le scheme
  have hoffset : 0 + 12 ≤ 64 := by omega
  have hthrough : 12 + i * 9 ≤ 64 := by omega
  have hget : 10 + 9 * i + (44 - 9 * i) ≤ 64 := by omega
  have hset : 12 + 9 * i + (44 - 9 * i) ≤ 64 := by omega
  simp only [assemble, schemeRow_vpnWidth, ppnLow_eq hi, ppnHigh_eq hi, bfGet_of_le _ hoffset, bfSet_of_le _ _ hoffset,
    bfGet_of_le _ hthrough, bfSet_of_le _ _ hthrough, bfGet_of_le _ hget, bfSet_of_le _ _ hset, inRange, bind,
    Except.bind, assembled]
  by_cases h0 : i = 0
  · simp only [h0, if_true, Nat.zero_mul, withField_size_zero]
  · simp only [h0, if_false]

/-- The assembled address, bit by bit: the bits below the level's page size from the virtual address, the rest of the 56
bits from the PPN at its offset, zero above (R75, R147-R149, D5). -/
theorem assembled_getLsbD {i : Nat} (hi : i < 4) (va pte : Word) {k : Nat} (hk : k < 64) :
    (assembled i va pte).getLsbD k =
      if k < 12 + 9 * i then va.getLsbD k else if k < 56 then pte.getLsbD (k - 2) else false := by
  simp only [assembled, withField_getLsbD _ _ _ _ _ hk, BitVec.testBit_toNat, field_getLsbD]
  by_cases hframe : 12 + 9 * i ≤ k
  · by_cases htop : k < 56
    · have hoffset : 10 + 9 * i + (k - (12 + 9 * i)) = k - 2 := by omega
      rw [if_pos (by omega), if_neg (by omega), if_pos htop, decide_eq_true (by omega), decide_eq_true (by omega),
        hoffset]
      rfl
    · rw [if_neg (by omega), if_neg (by omega), if_neg (by omega), if_neg (by omega), if_neg htop]
      exact BitVec.getLsbD_zero
  · rw [if_neg (by omega), if_pos (show k < 12 + 9 * i by omega)]
    by_cases hpage : 12 ≤ k
    · have hoffset : 12 + (k - 12) = k := by omega
      rw [if_pos (by omega), decide_eq_true (by omega), decide_eq_true (by omega), hoffset]
      rfl
    · have hoffset : 0 + (k - 0) = k := by omega
      rw [if_neg (by omega), if_pos (by omega), decide_eq_true (by omega), decide_eq_true (by omega), hoffset]
      rfl

theorem assembled_lt {i : Nat} (hi : i < 4) (va pte : Word) : (assembled i va pte).toNat < 2 ^ 56 := by
  refine Nat.lt_pow_two_of_testBit _ fun k hk => ?_
  rw [BitVec.testBit_toNat]
  by_cases hk64 : k < 64
  · rw [assembled_getLsbD hi va pte hk64, if_neg (by omega), if_neg (by omega)]
  · exact BitVec.getLsbD_of_ge _ _ (Nat.le_of_not_lt hk64)

/-- Everything a leaf step can do at a level of the scheme, its registers written: it never fails (R110, R145-R150). -/
theorem Block.leaf_of_written {b : Block} {i : Nat} {scheme : Scheme} {pte va : Word} (hs : b.scheme = .holds scheme)
    (hi : i < refLevels scheme) (hp : b.pte = .holds pte) (hv : b.va = .holds va) :
    b.leaf i = .ok (if pte.toNat / 2 ^ 10 % 2 ^ (9 * i) = 0
      then ({ b with pa := .holds (assembled i va pte) } : Block).succeed (assembled i va pte) (pteRights pte)
      else b.raise .misalignedSuperpage) := by
  by_cases h : pte.toNat / 2 ^ 10 % 2 ^ (9 * i) = 0
  · rw [if_pos h]
    exact Block.leaf_of_aligned hs hp (by rw [superpageAligned_eq hi, decide_eq_true h]) hv (assemble_eq hi va pte)
  · rw [if_neg h]
    exact Block.leaf_of_misaligned hs hp (by rw [superpageAligned_eq hi, decide_eq_false h])

end Sys2Proof.Machine
end

section
/-! SUPPORT. The invariant of the machine, kept by every step (O46, O47). -/

namespace Sys2Proof.Machine

/-! ## The invariant, by the state of the sequencer -/

theorem Block.coherent_of_idle {b : Block} (hc : b.ctrl = .idle) : b.coherent = b.nothingWritten := by
  simp only [Block.coherent, hc]

theorem Block.coherent_of_walkingLevel {b : Block} {i : Nat} (hc : b.ctrl = .walkingLevel i) :
    b.coherent = b.walking i := by
  simp only [Block.coherent, hc]

theorem Block.coherent_of_leafFound {b : Block} {i : Nat} (hc : b.ctrl = .leafFound i) :
    b.coherent = true ↔ b.walking i = true ∧ ∃ pte, b.pte = .holds pte ∧ pteType pte = .leaf := by
  simp only [Block.coherent, hc, Bool.and_eq_true, Reg.satisfies_iff, decide_eq_true_eq]

theorem Block.coherent_of_done {b : Block} (hc : b.ctrl = .done) :
    b.coherent = true ↔ ∃ pa, b.pa = .holds pa ∧ pa.toNat < 2 ^ 56 ∧
      ∃ pte, b.pte = .holds pte ∧ b.response = .holds (.ok pa (pteRights pte)) := by
  simp only [Block.coherent, hc, Bool.and_eq_true, Reg.satisfies_iff, decide_eq_true_eq]

theorem Block.coherent_of_faulted {b : Block} {f : WalkFault} (hc : b.ctrl = .faulted f) :
    b.coherent = true ↔ b.response = .holds (.fault f.toTranslationFault) := by
  simp only [Block.coherent, hc, decide_eq_true_eq]

theorem Block.coherent_of_translationDisabled {b : Block} (hc : b.ctrl = .translationDisabled) :
    b.coherent = true ↔ b.response = .holds (.fault .translationDisabled) := by
  simp only [Block.coherent, hc, decide_eq_true_eq]

@[simp] theorem Block.coherent_reset : Block.reset.coherent = true := rfl

@[simp] theorem Block.coherent_raise (b : Block) (f : WalkFault) : (b.raise f).coherent = true :=
  (Block.coherent_of_faulted rfl).mpr rfl

@[simp] theorem Block.coherent_disable (b : Block) : b.disable.coherent = true :=
  (Block.coherent_of_translationDisabled rfl).mpr rfl

/-- Which registers an idle coherent block has written: none (R40). -/
theorem Block.nothingWritten_iff {b : Block} :
    b.nothingWritten = true ↔ b.scheme.isWritten = false ∧ b.tc.isWritten = false ∧ b.va.isWritten = false ∧
      b.pte.isWritten = false ∧ b.pa.isWritten = false ∧ b.vpn.isWritten = false ∧ b.a.isWritten = false ∧
      b.response.isWritten = false := by
  simp [Block.nothingWritten, and_assoc]

theorem State.coherent_iff {s : State} :
    s.coherent = true ↔ s.cur.block.coherent = true ∧ (∀ x ∈ s.parked, x.block.coherent = true) ∧
      s.accessor.mem.wf = true := by
  simp [State.coherent, and_assoc]

/-! ## The block's transitions keep it -/

/-- The start of a call on an idle block (R134, R174). -/
theorem Block.startCall_coherent {b : Block} (h : b.nothingWritten = true) (scheme : Scheme) (va tc : Word) :
    (b.startCall scheme va tc).coherent = true := by
  by_cases hm : tc.toNat / 2 ^ 60 = 0
  · rw [Block.startCall_of_modeZero hm, Block.coherent_disable]
  · obtain ⟨-, -, -, -, hpa, -, -, hresponse⟩ := Block.nothingWritten_iff.mp h
    have hmode : tcMode tc ≠ 0#4 := fun h0 => hm (by rw [← tcMode_toNat, h0]; rfl)
    have hlevel : (schemeRow scheme).levels - 1 < refLevels scheme := by
      have := refLevels_pos scheme
      rw [schemeRow_levels]
      omega
    rw [Block.startCall_of_accepted hm, Block.coherent_of_walkingLevel rfl, Block.walking_iff]
    exact ⟨scheme, tc, va, _, rfl, rfl, rfl, rfl, hlevel, rfl, hmode, tableBase_frameBase scheme _, hpa, hresponse⟩

/-- A pointer leads to a level of the same scheme, with a frame's base as the table's (R143). -/
theorem Block.descend_coherent {b : Block} {below : Nat} {scheme : Scheme} (h : b.walking (below + 1) = true)
    (hs : b.scheme = .holds scheme) (pte : Word) : (b.descend (schemeRow scheme) pte below).coherent = true := by
  obtain ⟨scheme', tc, va, base, hs', htc, hva, ha, hi, hvpn, hmode, hbase, hpa, hresponse⟩ := Block.walking_iff.mp h
  obtain rfl : scheme' = scheme := by simpa [hs'] using hs
  rw [Block.coherent_of_walkingLevel rfl, Block.walking_iff]
  exact ⟨scheme', tc, va, _, hs, htc, hva, rfl, by omega, hvpn, hmode, tableBase_frameBase scheme' _, hpa, hresponse⟩

/-- A level's step, whatever the accessor answers (R137-R143). -/
theorem Block.afterAnswer_coherent {b : Block} {i : Nat} (h : b.walking i = true) (x : Answer) :
    (b.afterAnswer b.config i x).coherent = true := by
  cases x with
  | error e => exact Block.coherent_raise _ _
  | bytes bytes =>
    let b' : Block := { b with pte := .holds (le bytes) }
    have hw : b'.walking i = true := h
    show (b'.examine b.config i (le bytes)).coherent = true
    rcases Block.examine_cases b' b.config i (le bytes) with ⟨he, -⟩ | ⟨he, hleaf⟩ | ⟨below, rfl, -, he⟩
    · rw [he, Block.coherent_raise]
    · rw [he]
      exact (Block.coherent_of_leafFound rfl).mpr ⟨hw, le bytes, rfl, hleaf⟩
    · obtain ⟨scheme, _, _, _, hs, -⟩ := Block.walking_iff.mp h
      rw [he, Block.config_of_written hs]
      exact Block.descend_coherent hw hs _

/-- The leaf step: the fault, or an address below 2^56 with the PTE's rights (R145-R150). -/
theorem Block.leaf_coherent {b b' : Block} {i : Nat} (hc : b.ctrl = .leafFound i) (h : b.coherent = true)
    (hb : b.leaf i = .ok b') : b'.coherent = true := by
  obtain ⟨hw, pte, hpte, -⟩ := (Block.coherent_of_leafFound hc).mp h
  obtain ⟨scheme, _, va, _, hs, -, hva, -, hi, -⟩ := Block.walking_iff.mp hw
  have h4 : i < 4 := Nat.lt_of_lt_of_le hi (refLevels_le scheme)
  rw [Block.leaf_of_written hs hi hpte hva, Except.ok.injEq] at hb
  subst hb
  split
  · exact (Block.coherent_of_done rfl).mpr ⟨_, rfl, assembled_lt h4 va pte, pte, hpte, rfl⟩
  · exact Block.coherent_raise _ _

/-! ## What a step leaves alone outside the block -/

/-- An operation touches the selected agent only, and of it neither the requests nor the reads (R42, R55). -/
theorem exec_frame {i : Instr} {s t : State} (h : exec i s = .next t) :
    t.accessor = s.accessor ∧ t.tcRegister = s.tcRegister ∧ t.parked = s.parked ∧ t.schedule = s.schedule ∧
      t.cur.requests = s.cur.requests ∧ t.cur.reads = s.cur.reads := by
  obtain ⟨-, ⟨r, rfl⟩ | ⟨scheme, va, -, rfl⟩⟩ := exec_next h
  · exact ⟨rfl, rfl, rfl, rfl, rfl, rfl⟩
  · exact ⟨rfl, rfl, rfl, rfl, rfl, rfl⟩

/-- Outside the selected agent a step of the block changes at most what the accessor will answer next (R42, R55). -/
theorem blockStep_frame {s t : State} (h : blockStep s = .next t) :
    t.accessor.mem = s.accessor.mem ∧ t.accessor.stalled = s.accessor.stalled ∧ t.tcRegister = s.tcRegister ∧
      t.parked = s.parked ∧ t.schedule = s.schedule := by
  rcases blockStep_next h with ⟨-, rfl, -⟩ | ⟨-, d, rest, i, -, -, he⟩ | ⟨i, -, hw⟩ | ⟨i, -, hl⟩ | ⟨-, rfl⟩
  · exact ⟨rfl, rfl, rfl, rfl, rfl⟩
  · obtain ⟨hacc, htc, hparked, hschedule, -⟩ := exec_frame he
    exact ⟨by rw [hacc], by rw [hacc], htc, hparked, hschedule⟩
  · obtain ⟨-, rfl⟩ | ⟨-, rfl⟩ := walkStep_next.mp hw
    · exact ⟨rfl, rfl, rfl, rfl, rfl⟩
    · exact ⟨rfl, rfl, rfl, rfl, rfl⟩
  · obtain ⟨b, -, rfl⟩ := leafStep_next.mp hl
    exact ⟨rfl, rfl, rfl, rfl, rfl⟩
  · exact ⟨rfl, rfl, rfl, rfl, rfl⟩

/-! ## The step keeps it -/

/-- The block's own step leaves a coherent block (R132). -/
theorem blockStep_block_coherent {s t : State} (hb : s.cur.block.coherent = true) (h : blockStep s = .next t) :
    t.cur.block.coherent = true := by
  rcases blockStep_next h with ⟨-, rfl, -⟩ | ⟨hc, d, rest, i, -, -, he⟩ | ⟨i, hc, hw⟩ | ⟨i, hc, hl⟩ | ⟨-, rfl⟩
  · exact hb
  · obtain ⟨-, ⟨r, rfl⟩ | ⟨scheme, va, -, rfl⟩⟩ := exec_next he
    · exact hb
    · exact Block.startCall_coherent (by rwa [Block.coherent_of_idle hc] at hb) scheme va _
  · obtain ⟨-, rfl⟩ | ⟨-, rfl⟩ := walkStep_next.mp hw
    · exact hb
    · exact Block.afterAnswer_coherent (by rwa [Block.coherent_of_walkingLevel hc] at hb) _
  · obtain ⟨b, hleaf, rfl⟩ := leafStep_next.mp hl
    exact Block.leaf_coherent hc hb hleaf
  · exact Block.coherent_reset

theorem blockStep_coherent {s t : State} (hs : s.coherent = true) (h : blockStep s = .next t) : t.coherent = true := by
  obtain ⟨hb, hparked, hmem⟩ := State.coherent_iff.mp hs
  obtain ⟨hmem', -, -, hparked', -⟩ := blockStep_frame h
  exact State.coherent_iff.mpr ⟨blockStep_block_coherent hb h, by rwa [hparked'], by rwa [hmem']⟩

/-- Selection exchanges two agents with coherent blocks (R184). -/
theorem State.select_coherent {s : State} (hs : s.coherent = true) (k : Nat) : (s.select k).coherent = true := by
  unfold State.select
  cases hk : s.parked[k]? with
  | none => exact hs
  | some x =>
    obtain ⟨hb, hparked, hmem⟩ := State.coherent_iff.mp hs
    refine State.coherent_iff.mpr ⟨hparked x (List.mem_of_getElem? hk), fun y hy => ?_, hmem⟩
    rcases List.mem_or_eq_of_mem_set hy with hy | rfl
    · exact hparked y hy
    · exact hb

/-- No turn of the environment breaks the invariant: but for selection, a new agent and reset, it leaves every block as
it is. -/
theorem State.applyTurn_coherent {s : State} (hs : s.coherent = true) (turn : Turn) :
    (s.applyTurn turn).coherent = true := by
  obtain ⟨hb, hparked, hmem⟩ := State.coherent_iff.mp hs
  have hmem' := State.applyTurn_mem_wf s turn hmem
  cases turn with
  | select k => exact State.select_coherent hs k
  | newAgent =>
    refine State.coherent_iff.mpr ⟨hb, fun x hx => ?_, hmem⟩
    rcases List.mem_append.mp hx with hx | hx
    · exact hparked x hx
    · rw [List.mem_singleton.mp hx]
      exact Block.coherent_reset
  | reset => exact State.coherent_iff.mpr ⟨Block.coherent_reset, hparked, hmem⟩
  | writeByte address b => exact State.coherent_iff.mpr ⟨hb, hparked, hmem'⟩
  | unmapByte address => exact State.coherent_iff.mpr ⟨hb, hparked, hmem'⟩
  | block => exact hs
  | submit d => exact hs
  | setTc w => exact hs
  | forceAnswer x => exact hs
  | stall => exact hs
  | resume => exact hs

/-- Settles O46: no register of the reset block is written, and its memory is empty. -/
theorem resetIsCoherent : Obligations.ResetIsCoherent := by
  unfold Obligations.ResetIsCoherent
  exact State.coherent_iff.mpr ⟨Block.coherent_reset, by simp [State.reset], State.reset_mem_wf⟩

/-- Settles O47: a step is the block's, which keeps its block coherent and touches nothing outside, or a turn of the
environment. -/
theorem coherenceIsKept : Obligations.CoherenceIsKept := by
  unfold Obligations.CoherenceIsKept
  intro s t hs h
  rcases step_cases s with ⟨-, hstep⟩ | ⟨turn, rest, -, -, hstep⟩
  · rw [hstep] at h
    exact blockStep_coherent (s := s.turnTaken) hs h
  · rw [hstep, Host.Outcome.next.injEq] at h
    subst h
    exact State.applyTurn_coherent (s := { s with schedule := rest }) hs turn

end Sys2Proof.Machine
end

section
/-! SUPPORT. The configuration rows, reset, the frame of an operation and the use of the TC register (O9, O18, O21, O23,
O38). -/

namespace Sys2Proof.Machine

/-- Below the top level every PPN segment is as wide as a VPN segment (R31). -/
theorem ppnSegmentWidths_below_top {scheme : Scheme} {k : Nat} (h : k + 1 < refLevels scheme) :
    (schemeRow scheme).ppnSegmentWidths[k]? = some 9 := by
  cases scheme with
  | sv39 =>
    have hk : k < 2 := Nat.lt_of_succ_lt_succ h
    interval_cases k <;> rfl
  | sv48 =>
    have hk : k < 3 := Nat.lt_of_succ_lt_succ h
    interval_cases k <;> rfl

/-- Settles O9: the widths of the two rows, added up. -/
theorem schemeRowsSatisfyTheInvariants : Obligations.SchemeRowsSatisfyTheInvariants := by
  unfold Obligations.SchemeRowsSatisfyTheInvariants
  intro scheme
  have hbelow (k : Nat) (hk : k + 1 < (schemeRow scheme).levels) :
      (schemeRow scheme).ppnSegmentWidths[k]? = some (schemeRow scheme).vpnWidth := by
    rw [schemeRow_levels] at hk
    rw [schemeRow_vpnWidth]
    exact ppnSegmentWidths_below_top hk
  have hlow (i : Nat) (hi : i < (schemeRow scheme).levels) :
      ((schemeRow scheme).ppnSegmentWidths.take i).sum = i * (schemeRow scheme).vpnWidth := by
    rw [schemeRow_levels] at hi
    rw [schemeRow_vpnWidth, Nat.mul_comm]
    exact ppnLow_eq hi
  cases scheme with
  | sv39 => exact ⟨rfl, rfl, rfl, hbelow, hlow⟩
  | sv48 => exact ⟨rfl, rfl, rfl, hbelow, hlow⟩

/-- Settles O38: every register of State.reset is built by `Reg.unwritten`. -/
theorem resetLeavesNothingWritten : Obligations.ResetLeavesNothingWritten := by
  unfold Obligations.ResetLeavesNothingWritten
  obtain ⟨hscheme, htc, hva, hpte, hpa, hvpn, ha, hresponse⟩ := Block.nothingWritten_iff.mp Block.reset_nothingWritten
  exact ⟨rfl, htc, hva, hpte, hpa, hvpn, ha, hscheme, hresponse, rfl, rfl⟩

/-- Settles O18: an operation delivers one result, or is the start of a call, which writes neither PTE nor PA. -/
theorem operationsLeaveTheRestUnchanged : Obligations.OperationsLeaveTheRestUnchanged := by
  unfold Obligations.OperationsLeaveTheRestUnchanged
  intro i s t h
  obtain ⟨hacc, htc, hparked, hschedule, hrequests, hreads⟩ := exec_frame h
  refine ⟨fun addr => by rw [hacc], hacc, htc, hparked, hschedule, hrequests, hreads, fun hdatapath => ?_, ?_⟩
  · obtain ⟨-, ⟨r, rfl⟩ | ⟨scheme, va, hi, -⟩⟩ := exec_next h
    · exact ⟨rfl, rfl, r, rfl⟩
    · exact absurd hi (hdatapath scheme va)
  · rintro scheme va rfl
    rw [exec_translateInstr] at h
    obtain ⟨-, rfl⟩ := State.accept_next.mp h
    exact ⟨Block.startCall_pte _ _ _ _, Block.startCall_pa _ _ _ _, rfl⟩

/-- A block step that leaves Idle is the start of a call, with the TC register sampled (R21, R133). -/
theorem blockStep_samples {s t : State} (h : blockStep s = .next t) :
    (s.cur.block.ctrl = .idle ∧ t.cur.block.ctrl ≠ .idle ∧ t.cur.samples = s.cur.samples ++ [s.tcRegister] ∧
        t.cur.block.tc = .holds s.tcRegister) ∨
      (¬ (s.cur.block.ctrl = .idle ∧ t.cur.block.ctrl ≠ .idle) ∧ t.cur.samples = s.cur.samples) := by
  rcases blockStep_next h with ⟨hc, rfl, -⟩ | ⟨hc, d, rest, i, -, -, he⟩ | ⟨i, hc, hw⟩ | ⟨i, hc, hl⟩ | ⟨hc, rfl⟩
  · exact .inr ⟨fun hleft => hleft.2 hc, rfl⟩
  · obtain ⟨-, ⟨r, rfl⟩ | ⟨scheme, va, -, rfl⟩⟩ := exec_next he
    · exact .inr ⟨fun hleft => hleft.2 hc, rfl⟩
    · exact .inl ⟨hc, Block.startCall_ctrl_ne_idle _ _ _ _, rfl, Block.startCall_tc _ _ _ _⟩
  · refine .inr ⟨by simp [hc], ?_⟩
    obtain ⟨-, rfl⟩ | ⟨-, rfl⟩ := walkStep_next.mp hw <;> rfl
  · refine .inr ⟨by simp [hc], ?_⟩
    obtain ⟨b, -, rfl⟩ := leafStep_next.mp hl
    rfl
  · refine .inr ⟨?_, rfl⟩
    rintro ⟨hidle, -⟩
    simp [hidle, Ctrl.terminal] at hc

/-- Settles O21: of the block's steps only a call start samples. -/
theorem tcIsSampledOnlyAtCallStart : Obligations.TcIsSampledOnlyAtCallStart := by
  unfold Obligations.TcIsSampledOnlyAtCallStart
  intro s t hturn h
  rw [step_of_blockTurn hturn] at h
  rcases blockStep_samples h with ⟨hc, hleft, hsamples, htc⟩ | ⟨hstay, hsamples⟩
  · exact ⟨fun _ => ⟨hsamples, htc⟩, fun hstay => absurd ⟨hc, hleft⟩ hstay⟩
  · exact ⟨fun hleft => absurd hleft hstay, fun _ => hsamples⟩

/-- Settles O23: with nonzero modes both calls start a walk, and equal root PPNs give it one table base. -/
theorem onlyRootPpnOfTheTcMatters : Obligations.OnlyRootPpnOfTheTcMatters := by
  unfold Obligations.OnlyRootPpnOfTheTcMatters
  intro b scheme va tc tc' hmode hmode' hppn
  have hroot : tcRootPPN tc = tcRootPPN tc' :=
    BitVec.eq_of_toNat_eq (by rw [tcRootPPN_toNat, tcRootPPN_toNat, hppn])
  rw [Block.startCall_of_accepted hmode, Block.startCall_of_accepted hmode', Block.initWalk, hroot]
  rfl

end Sys2Proof.Machine
end

section
/-! SUPPORT. A step of the block does not look at the histories of its channels (O44). -/

namespace Sys2Proof.Machine

/-- The state with other contents of the three histories (log 7). -/
def State.withHistories (s : State) (delivered : List Result) (reads : List ReadRequest) (samples : List Word) :
    State :=
  { s with cur := { s.cur with delivered := delivered, reads := reads, samples := samples } }

/-- From `s` the function `f` gives `t`, and from `s` with any other histories it gives `t` but for them: the same new
results, reads and samples stand at their ends. -/
def AppendsOnly (f : State → Host.Outcome State Fault Refusal) (s t : State) : Prop :=
  ∃ newResults newReads newSamples,
    t.cur.delivered = s.cur.delivered ++ newResults ∧ t.cur.reads = s.cur.reads ++ newReads ∧
      t.cur.samples = s.cur.samples ++ newSamples ∧
      ∀ delivered reads samples, f (s.withHistories delivered reads samples) =
        .next (t.withHistories (delivered ++ newResults) (reads ++ newReads) (samples ++ newSamples))

/-- A function that only changes what is no history. -/
theorem AppendsOnly.of_histories_kept {f : State → Host.Outcome State Fault Refusal} {s t : State}
    (hd : t.cur.delivered = s.cur.delivered) (hr : t.cur.reads = s.cur.reads) (hs : t.cur.samples = s.cur.samples)
    (hf : ∀ delivered reads samples, f (s.withHistories delivered reads samples) =
      .next (t.withHistories delivered reads samples)) : AppendsOnly f s t :=
  ⟨[], [], [], by simp [hd], by simp [hr], by simp [hs], by simpa using hf⟩

/-- A function that does on `s` what another does on `s'`, whatever stands in the histories. -/
theorem AppendsOnly.of_eq {f g : State → Host.Outcome State Fault Refusal} {s s' t : State} (h : AppendsOnly g s' t)
    (hd : s'.cur.delivered = s.cur.delivered) (hr : s'.cur.reads = s.cur.reads) (hs : s'.cur.samples = s.cur.samples)
    (hfg : ∀ delivered reads samples,
      f (s.withHistories delivered reads samples) = g (s'.withHistories delivered reads samples)) :
    AppendsOnly f s t := by
  obtain ⟨newResults, newReads, newSamples, hresults, hreads, hsamples, hg⟩ := h
  exact ⟨newResults, newReads, newSamples, hd ▸ hresults, hr ▸ hreads, hs ▸ hsamples, fun delivered reads samples =>
    (hfg delivered reads samples).trans (hg delivered reads samples)⟩

theorem exec_appendsOnly {i : Instr} {s t : State} (h : exec i s = .next t) : AppendsOnly (exec i) s t := by
  obtain ⟨hc, -⟩ := exec_next h
  rcases exec_shape i with ⟨scheme, va, rfl⟩ | ⟨r, hi⟩ | ⟨e, hi⟩
  · rw [exec_translateInstr_of_idle scheme va hc, Host.Outcome.next.injEq] at h
    subst h
    refine ⟨[], [], [s.tcRegister], by simp, by simp, by simp, fun delivered reads samples => ?_⟩
    rw [exec_translateInstr_of_idle (s := s.withHistories delivered reads samples) scheme va hc, List.append_nil,
      List.append_nil]
    rfl
  · rw [hi, State.accept_of_idle _ hc, Host.Outcome.next.injEq] at h
    subst h
    refine ⟨[r], [], [], by simp, by simp, by simp, fun delivered reads samples => ?_⟩
    rw [hi, State.accept_of_idle (s := s.withHistories delivered reads samples) _ hc, List.append_nil, List.append_nil]
    rfl
  · rw [hi] at h
    cases h

theorem walkStep_appendsOnly {i : Nat} {s t : State} (h : walkStep i s = .next t) : AppendsOnly (walkStep i) s t := by
  obtain ⟨hstalled, rfl⟩ | ⟨hanswers, rfl⟩ := walkStep_next.mp h
  · exact .of_histories_kept rfl rfl rfl fun _ _ _ => walkStep_stalled hstalled
  · refine ⟨[], [⟨s.cur.block.pteAddress i, s.cur.block.config.entrySize⟩], [], by simp, by simp, by simp,
      fun delivered reads samples => ?_⟩
    rw [walkStep_of_answered (s := s.withHistories delivered reads samples) hanswers, List.append_nil, List.append_nil]
    rfl

theorem leafStep_appendsOnly {i : Nat} {s t : State} (h : leafStep i s = .next t) : AppendsOnly (leafStep i) s t := by
  obtain ⟨b, hb, rfl⟩ := leafStep_next.mp h
  exact .of_histories_kept rfl rfl rfl fun delivered reads samples =>
    leafStep_of_ok (s := s.withHistories delivered reads samples) hb

theorem blockStep_appendsOnly {s t : State} (h : blockStep s = .next t) : AppendsOnly blockStep s t := by
  rcases blockStep_next h with ⟨hc, rfl, hr⟩ | ⟨hc, d, rest, i, hr, hd, he⟩ | ⟨i, hc, hw⟩ | ⟨i, hc, hl⟩ | ⟨hc, rfl⟩
  · exact .of_histories_kept rfl rfl rfl fun delivered reads samples =>
      blockStep_of_waiting (s := t.withHistories delivered reads samples) hc hr
  · exact (exec_appendsOnly he).of_eq rfl rfl rfl fun delivered reads samples =>
      blockStep_of_operation (s := s.withHistories delivered reads samples) hc hr hd
  · exact (walkStep_appendsOnly hw).of_eq rfl rfl rfl fun delivered reads samples =>
      blockStep_of_walkingLevel (s := s.withHistories delivered reads samples) hc
  · exact (leafStep_appendsOnly hl).of_eq rfl rfl rfl fun delivered reads samples =>
      blockStep_of_leafFound (s := s.withHistories delivered reads samples) hc
  · refine ⟨[.translation s.cur.block.response.read], [], [], rfl, by simp [State.deliverResponse],
      by simp [State.deliverResponse], fun delivered reads samples => ?_⟩
    rw [blockStep_of_terminal (s := s.withHistories delivered reads samples) hc, List.append_nil, List.append_nil]
    rfl

/-- Settles O44: each kind of block step appends to the histories and reads nothing of them. -/
theorem earlierCallsDoNotMatter : Obligations.EarlierCallsDoNotMatter := by
  unfold Obligations.EarlierCallsDoNotMatter
  intro s t delivered reads samples hturn h
  rw [step_of_blockTurn hturn] at h
  obtain ⟨newResults, newReads, newSamples, hresults, hreads, hsamples, hstep⟩ := blockStep_appendsOnly h
  refine ⟨newResults, newReads, newSamples, hresults, hreads, hsamples, ?_⟩
  exact (step_of_blockTurn (s := s.withHistories delivered reads samples) hturn).trans (hstep delivered reads samples)

end Sys2Proof.Machine
end

section
/-! SUPPORT. A step of the block does not look at what its unwritten registers contain (O54). -/

namespace Sys2Proof.Machine

/-! ## The block's operations keep agreement -/

theorem Block.agrees_raise {b c : Block} (h : b.agrees c) (f : WalkFault) : (b.raise f).agrees (c.raise f) := by
  obtain ⟨-, hscheme, htc, hva, hpte, hpa, hvpn, ha, -⟩ := h
  exact ⟨rfl, hscheme, htc, hva, hpte, hpa, hvpn, ha, rfl⟩

theorem Block.agrees_succeed {b c : Block} (h : b.agrees c) (pa : Word) (rights : Rights) :
    (({ b with pa := .holds pa } : Block).succeed pa rights).agrees
      (({ c with pa := .holds pa } : Block).succeed pa rights) := by
  obtain ⟨-, hscheme, htc, hva, hpte, -, hvpn, ha, -⟩ := h
  exact ⟨rfl, hscheme, htc, hva, hpte, rfl, hvpn, ha, rfl⟩

theorem Block.agrees_startCall {b c : Block} (h : b.agrees c) (scheme : Scheme) (va tc : Word) :
    (b.startCall scheme va tc).agrees (c.startCall scheme va tc) := by
  obtain ⟨-, -, -, hva, hpte, hpa, hvpn, ha, hresponse⟩ := h
  by_cases hm : tc.toNat / 2 ^ 60 = 0
  · rw [Block.startCall_of_modeZero hm, Block.startCall_of_modeZero hm]
    exact ⟨rfl, rfl, rfl, hva, hpte, hpa, hvpn, ha, rfl⟩
  · rw [Block.startCall_of_accepted hm, Block.startCall_of_accepted hm]
    exact ⟨rfl, rfl, rfl, rfl, hpte, hpa, rfl, rfl, hresponse⟩

theorem Block.agrees_examine {b c : Block} (h : b.agrees c) (cfg : SchemeConfig) (i : Nat) (pte : Word) :
    (b.examine cfg i pte).agrees (c.examine cfg i pte) := by
  have ⟨_, hscheme, htc, hva, hpte, hpa, hvpn, ha, hresponse⟩ := h
  unfold Block.examine
  cases pteType pte with
  | invalid => exact Block.agrees_raise h _
  | reserved => exact Block.agrees_raise h _
  | leaf => exact ⟨rfl, hscheme, htc, hva, hpte, hpa, hvpn, ha, hresponse⟩
  | pointer =>
    cases i with
    | zero => exact Block.agrees_raise h _
    | succ below => exact ⟨rfl, hscheme, htc, hva, hpte, hpa, hvpn, rfl, hresponse⟩

theorem Block.agrees_afterAnswer {b c : Block} (h : b.agrees c) (cfg : SchemeConfig) (i : Nat) (x : Answer) :
    (b.afterAnswer cfg i x).agrees (c.afterAnswer cfg i x) := by
  cases x with
  | error e => exact Block.agrees_raise h _
  | bytes bytes =>
    obtain ⟨hctrl, hscheme, htc, hva, -, hpa, hvpn, ha, hresponse⟩ := h
    have hread : ({ b with pte := .holds (le bytes) } : Block).agrees { c with pte := .holds (le bytes) } :=
      ⟨hctrl, hscheme, htc, hva, rfl, hpa, hvpn, ha, hresponse⟩
    exact Block.agrees_examine hread cfg i _

/-! ## Steps on agreeing blocks -/

/-- What two steps from states with agreeing blocks come to: the same next state up to an agreeing block, or the same
stop. -/
def OutcomesAgree : Host.Outcome State Fault Refusal → Host.Outcome State Fault Refusal → Prop
  | .next t, y => ∃ c, y = .next (t.withBlock c) ∧ t.cur.block.agrees c
  | .fault f, y => y = .fault f
  | .refused r, y => y = .refused r

theorem exec_agrees {s : State} {b : Block} (h : s.cur.block.agrees b) (hc : s.cur.block.ctrl = .idle) (i : Instr) :
    OutcomesAgree (exec i s) (exec i (s.withBlock b)) := by
  have hb : (s.withBlock b).cur.block.ctrl = .idle := h.1.symm.trans hc
  rcases exec_shape i with ⟨scheme, va, rfl⟩ | ⟨r, hi⟩ | ⟨e, hi⟩
  · rw [exec_translateInstr_of_idle scheme va hc, exec_translateInstr_of_idle scheme va hb]
    exact ⟨b.startCall scheme va s.tcRegister, rfl, Block.agrees_startCall h scheme va _⟩
  · rw [hi, hi, State.accept_of_idle _ hc, State.accept_of_idle _ hb]
    exact ⟨b, rfl, h⟩
  · rw [hi, hi]
    rfl

/-- A level's step reads the scheme, the table's base and a segment, all of them written (R41, R134, R136). -/
theorem walkStep_agrees {s : State} {b : Block} {i : Nat} (h : s.cur.block.agrees b)
    (hw : s.cur.block.walking i = true) : OutcomesAgree (walkStep i s) (walkStep i (s.withBlock b)) := by
  obtain ⟨scheme, tc, va, base, hs, -, -, ha, hi, hvpn, -⟩ := Block.walking_iff.mp hw
  cases hstalled : s.accessor.stalled with
  | true =>
    rw [walkStep_stalled hstalled, walkStep_stalled (s := s.withBlock b) hstalled]
    exact ⟨b, rfl, h⟩
  | false =>
    have ⟨_, hs', _, _, _, _, hvpn', ha', _⟩ := h
    rw [hs, Reg.agrees_holds] at hs'
    rw [hvpn, Reg.agrees_holds] at hvpn'
    rw [ha, Reg.agrees_holds] at ha'
    have hsegment := vpnSegments_get (va := va) hi
    rw [walkStep_of_written hstalled hs ha hvpn hsegment,
      walkStep_of_written (s := s.withBlock b) hstalled hs' ha' hvpn' hsegment]
    exact ⟨_, rfl, Block.agrees_afterAnswer h _ i _⟩

/-- The leaf step reads the scheme, PTE and VA, all of them written (R41, R145-R150). -/
theorem leafStep_agrees {s : State} {b : Block} {i : Nat} (h : s.cur.block.agrees b)
    (hc : s.cur.block.ctrl = .leafFound i) (hcoherent : s.cur.block.coherent = true) :
    OutcomesAgree (leafStep i s) (leafStep i (s.withBlock b)) := by
  obtain ⟨hw, pte, hpte, -⟩ := (Block.coherent_of_leafFound hc).mp hcoherent
  obtain ⟨scheme, _, va, _, hs, -, hva, -, hi, -⟩ := Block.walking_iff.mp hw
  have ⟨_, hs', _, hva', hpte', _⟩ := h
  rw [hs, Reg.agrees_holds] at hs'
  rw [hva, Reg.agrees_holds] at hva'
  rw [hpte, Reg.agrees_holds] at hpte'
  rw [leafStep_of_ok (Block.leaf_of_written hs hi hpte hva),
    leafStep_of_ok (s := s.withBlock b) (Block.leaf_of_written hs' hi hpte' hva')]
  refine ⟨_, rfl, ?_⟩
  split
  · exact Block.agrees_succeed h _ _
  · exact Block.agrees_raise h _

/-- In a terminal state the response is written (R38, R178). -/
theorem Block.response_of_terminal {b : Block} (hc : b.ctrl.terminal = true) (h : b.coherent = true) :
    ∃ r, b.response = .holds r := by
  cases hctrl : b.ctrl with
  | idle => simp [hctrl, Ctrl.terminal] at hc
  | walkingLevel i => simp [hctrl, Ctrl.terminal] at hc
  | leafFound i => simp [hctrl, Ctrl.terminal] at hc
  | done =>
    obtain ⟨pa, -, -, pte, -, hr⟩ := (Block.coherent_of_done hctrl).mp h
    exact ⟨_, hr⟩
  | faulted f => exact ⟨_, (Block.coherent_of_faulted hctrl).mp h⟩
  | translationDisabled => exact ⟨_, (Block.coherent_of_translationDisabled hctrl).mp h⟩

/-- A delivery reads the response register, which is written (R41). -/
theorem deliverResponse_agrees {s : State} {b : Block} (h : s.cur.block.agrees b) {r : Response}
    (hr : s.cur.block.response = .holds r) : (s.withBlock b).deliverResponse = s.deliverResponse := by
  obtain ⟨-, -, -, -, -, -, -, -, hr'⟩ := h
  rw [hr, Reg.agrees_holds] at hr'
  rw [State.deliverResponse_of_holds hr, State.deliverResponse_of_holds (s := s.withBlock b) hr']
  rfl

theorem blockStep_agrees {s : State} {b : Block} (hs : s.cur.block.coherent = true) (h : s.cur.block.agrees b) :
    OutcomesAgree (blockStep s) (blockStep (s.withBlock b)) := by
  have hctrl : (s.withBlock b).cur.block.ctrl = s.cur.block.ctrl := h.1.symm
  have hterminal (hc : s.cur.block.ctrl.terminal = true) : OutcomesAgree (blockStep s) (blockStep (s.withBlock b)) := by
    obtain ⟨r, hr⟩ := Block.response_of_terminal hc hs
    rw [blockStep_of_terminal hc, blockStep_of_terminal (hctrl ▸ hc), deliverResponse_agrees h hr]
    exact ⟨Block.reset, rfl, Block.agrees_refl _⟩
  cases hc : s.cur.block.ctrl with
  | idle =>
    rw [hc] at hctrl
    cases hr : s.cur.requests with
    | nil =>
      rw [blockStep_of_waiting hc hr, blockStep_of_waiting hctrl hr]
      exact ⟨b, rfl, h⟩
    | cons d rest =>
      cases hd : decode d with
      | error e =>
        rw [blockStep_of_bad hc hr hd, blockStep_of_bad hctrl hr hd]
        rfl
      | ok i =>
        rw [blockStep_of_operation hc hr hd, blockStep_of_operation hctrl hr hd]
        exact exec_agrees (s := { s with cur := { s.cur with requests := rest } }) h hc i
  | walkingLevel i =>
    rw [hc] at hctrl
    rw [blockStep_of_walkingLevel hc, blockStep_of_walkingLevel hctrl]
    exact walkStep_agrees h (by rwa [Block.coherent_of_walkingLevel hc] at hs)
  | leafFound i =>
    rw [hc] at hctrl
    rw [blockStep_of_leafFound hc, blockStep_of_leafFound hctrl]
    exact leafStep_agrees h hc hs
  | done => exact hterminal (by rw [hc]; rfl)
  | faulted f => exact hterminal (by rw [hc]; rfl)
  | translationDisabled => exact hterminal (by rw [hc]; rfl)

/-- Settles O54: the invariant says that every register a step uses is written, and agreeing blocks have the same values
there. -/
theorem unwrittenRegistersAreNotRead : Obligations.UnwrittenRegistersAreNotRead := by
  unfold Obligations.UnwrittenRegistersAreNotRead
  intro s b hs hturn h
  obtain ⟨hb, -, -⟩ := State.coherent_iff.mp hs
  have hagree := blockStep_agrees (s := s.turnTaken) hb h
  rw [step_of_blockTurn hturn, step_of_blockTurn (s := s.withBlock b) hturn]
  constructor
  · intro t ht
    rw [ht] at hagree
    exact hagree
  · intro r hr
    rw [hr] at hagree
    exact hagree

end Sys2Proof.Machine
end

section
/-! SUPPORT. Memory and its accessor, and what a step of the block reads and leaves alone (O42, O43, O52, O53). -/

namespace Sys2Proof.Machine

/-! ## Memory: reading after writing and unmapping (R51, R60) -/

@[simp] theorem Memory.read_write_same (m : Memory) (addr : Nat) (b : Byte) : (m.write addr b).read addr = some b := by
  induction m with
  | nil => simp [Memory.write, Memory.read]
  | cons c rest ih =>
    simp only [Memory.write]
    split
    · next hlt => simp [Memory.read, Nat.ne_of_lt hlt, ih]
    · split <;> simp [Memory.read]

theorem Memory.read_write_other (m : Memory) {addr other : Nat} (b : Byte) (h : other ≠ addr) :
    (m.write addr b).read other = m.read other := by
  induction m with
  | nil => simp [Memory.write, Memory.read, h.symm]
  | cons c rest ih =>
    simp only [Memory.write]
    split
    · simp only [Memory.read, ih]
    · split
      · next heq => simp [Memory.read, heq, h.symm]
      · simp [Memory.read, h.symm]

/-- Below the lowest mapped address nothing is mapped. -/
theorem Memory.read_of_below {m : Memory} {addr : Nat} (h : ∀ c ∈ m, addr < c.1) : m.read addr = none := by
  induction m with
  | nil => rfl
  | cons c rest ih =>
    have hc : addr < c.1 := h c List.mem_cons_self
    rw [Memory.read, if_neg (Nat.ne_of_gt hc)]
    exact ih fun d hd => h d (List.mem_cons_of_mem c hd)

/-- The canonical form lists an address once, so that nothing is left of it. -/
theorem Memory.read_unmap_same {m : Memory} (addr : Nat) (h : m.wf = true) : (m.unmap addr).read addr = none := by
  induction m with
  | nil => rfl
  | cons c rest ih =>
    obtain ⟨-, habove, hrest⟩ := (Memory.wf_cons c rest).mp h
    simp only [Memory.unmap]
    split
    · next heq => exact Memory.read_of_below (heq ▸ habove)
    · next hne => rw [Memory.read, if_neg hne, ih hrest]

theorem Memory.read_unmap_other (m : Memory) {addr other : Nat} (h : other ≠ addr) :
    (m.unmap addr).read other = m.read other := by
  induction m with
  | nil => rfl
  | cons c rest ih =>
    simp only [Memory.unmap]
    split
    · next heq => rw [Memory.read, if_neg (heq ▸ h.symm)]
    · simp only [Memory.read, ih]

/-- Settles O53: by induction on the list of cells; only unmapping needs the canonical form. -/
theorem memoryReadsWhatWasWritten : Obligations.MemoryReadsWhatWasWritten := by
  unfold Obligations.MemoryReadsWhatWasWritten
  intro m addr other b hm
  exact ⟨m.read_write_same addr b, Memory.read_unmap_same addr hm,
    fun h => ⟨m.read_write_other b h, m.read_unmap_other h⟩⟩

/-! ## The accessor's answer (R51, R173) -/

theorem Memory.readPte_eq_some {m : Memory} {addr : Nat} {b : PteBytes} :
    m.readPte addr = some b ↔
      m.read addr = some b.b0 ∧ m.read (addr + 1) = some b.b1 ∧ m.read (addr + 2) = some b.b2 ∧
        m.read (addr + 3) = some b.b3 ∧ m.read (addr + 4) = some b.b4 ∧ m.read (addr + 5) = some b.b5 ∧
        m.read (addr + 6) = some b.b6 ∧ m.read (addr + 7) = some b.b7 := by
  simp only [Memory.readPte, bind, Option.bind_eq_some_iff]
  constructor
  · rintro ⟨b0, h0, b1, h1, b2, h2, b3, h3, b4, h4, b5, h5, b6, h6, b7, h7, hb⟩
    cases hb
    exact ⟨h0, h1, h2, h3, h4, h5, h6, h7⟩
  · rintro ⟨h0, h1, h2, h3, h4, h5, h6, h7⟩
    exact ⟨_, h0, _, h1, _, h2, _, h3, _, h4, _, h5, _, h6, _, h7, rfl⟩

/-- No word is read exactly when one of its eight bytes is not mapped. -/
theorem Memory.readPte_eq_none {m : Memory} {addr : Nat} :
    m.readPte addr = none ↔ ∃ k, k < 8 ∧ m.read (addr + k) = none := by
  constructor
  · intro hnone
    by_contra hunmapped
    have hmapped (k : Nat) (hk : k < 8) : ∃ b, m.read (addr + k) = some b :=
      Option.ne_none_iff_exists'.mp fun h => hunmapped ⟨k, hk, h⟩
    choose byte hbyte using hmapped
    have hsome := Memory.readPte_eq_some (m := m) (addr := addr)
      (b := ⟨byte 0 (by omega), byte 1 (by omega), byte 2 (by omega), byte 3 (by omega), byte 4 (by omega),
        byte 5 (by omega), byte 6 (by omega), byte 7 (by omega)⟩)
    rw [hsome.mpr ⟨hbyte 0 _, hbyte 1 _, hbyte 2 _, hbyte 3 _, hbyte 4 _, hbyte 5 _, hbyte 6 _, hbyte 7 _⟩] at hnone
    cases hnone
  · rintro ⟨k, hk, hnone⟩
    rw [Option.eq_none_iff_forall_ne_some]
    intro b hb
    obtain ⟨h0, h1, h2, h3, h4, h5, h6, h7⟩ := Memory.readPte_eq_some.mp hb
    interval_cases k <;> simp_all

/-- With nothing forced the answer is memory's: its bytes, or the error of an address not mapped. -/
theorem Accessor.answer_of_unforced {acc : Accessor} (h : acc.forced = none) (addr : Word) :
    (∃ b, acc.mem.readPte addr.toNat = some b ∧ acc.answer addr = .bytes b) ∨
      (acc.mem.readPte addr.toNat = none ∧ acc.answer addr = .error (Config.accessorError acc.draws addr)) := by
  cases hm : acc.mem.readPte addr.toNat with
  | none => exact .inr ⟨rfl, by simp only [Accessor.answer, h, hm]⟩
  | some b => exact .inl ⟨b, rfl, by simp only [Accessor.answer, h, hm]⟩

/-- Settles O52: the answer is bytes exactly when memory has the whole word, and memory lacks it exactly when it lacks
one of the bytes. -/
theorem accessorAnswersTheBytesOfMemory : Obligations.AccessorAnswersTheBytesOfMemory := by
  unfold Obligations.AccessorAnswersTheBytesOfMemory
  intro acc addr hforced
  simp only [← Memory.readPte_eq_some, ← Memory.readPte_eq_none]
  rcases Accessor.answer_of_unforced hforced addr with ⟨b, hm, hanswer⟩ | ⟨hm, hanswer⟩
  · simp [hm, hanswer]
  · simp [hm, hanswer]

/-! ## What a step of the block leaves alone, and what it reads -/

/-- Settles O42: the frame of the block's step, and the turn it takes. -/
theorem theBlockWritesNothingOutside : Obligations.TheBlockWritesNothingOutside := by
  unfold Obligations.TheBlockWritesNothingOutside
  intro s t hturn h
  rw [step_of_blockTurn hturn] at h
  obtain ⟨hmem, hstalled, htc, hparked, hschedule⟩ := blockStep_frame h
  exact ⟨fun addr => by rw [hmem]; rfl, hmem, hstalled, htc, hparked, hschedule⟩

/-- A PTE's address as a number: the 512 entries of a table below 2^56 are reached with no wrap (R57, R136). -/
theorem entryAddress_toNat {base : Word} (h : base.toNat < 2 ^ 56) (segment : BitVec 9) :
    (entryAddress base segment).toNat = base.toNat + segment.toNat * 8 := by
  have := segment.isLt
  rw [entryAddress, BitVec.toNat_ofNat]
  exact Nat.mod_eq_of_lt (by omega)

/-- The address of a level's read is an entry of the table at `a` (R56, R57, R62). -/
theorem Block.pteAddress_of_walking {b : Block} {i : Nat} (h : b.walking i = true) :
    ∃ scheme base segment, b.config = schemeRow scheme ∧ b.a = .holds base ∧ base.toNat % 4096 = 0 ∧
      base.toNat < 2 ^ 56 ∧ b.pteAddress i = entryAddress base segment := by
  obtain ⟨scheme, -, va, base, hscheme, -, -, ha, hi, hvpn, -, hbase, -, -⟩ := Block.walking_iff.mp h
  obtain ⟨haligned, hbelow⟩ : base.toNat % 4096 = 0 ∧ base.toNat < 2 ^ 56 := by simpa [tableBase] using hbase
  refine ⟨scheme, base, vpnSegment (schemeRow scheme) va i, Block.config_of_written hscheme, ha, haligned, hbelow, ?_⟩
  rw [Block.pteAddress_of_written hscheme ha hvpn (vpnSegments_get hi), pteAddress_eq_entryAddress]

/-- A step of the block reads nothing, or is an answered level's step and reads one PTE (R132, R135). -/
theorem blockStep_reads {s t : State} (h : blockStep s = .next t) :
    t.cur.reads = s.cur.reads ∨
      ∃ i, s.cur.block.ctrl = .walkingLevel i ∧
        t.cur.reads = s.cur.reads ++ [⟨s.cur.block.pteAddress i, s.cur.block.config.entrySize⟩] := by
  rcases blockStep_next h with ⟨-, rfl, -⟩ | ⟨-, d, rest, i, -, -, he⟩ | ⟨i, hc, hw⟩ | ⟨i, -, hl⟩ | ⟨-, rfl⟩
  · exact .inl rfl
  · obtain ⟨-, -, -, -, -, hreads⟩ := exec_frame he
    exact .inl hreads
  · obtain ⟨-, rfl⟩ | ⟨-, rfl⟩ := walkStep_next.mp hw
    · exact .inl rfl
    · exact .inr ⟨i, hc, rfl⟩
  · obtain ⟨b, -, rfl⟩ := leafStep_next.mp hl
    exact .inl rfl
  · exact .inl rfl

/-- Settles O43: only an answered level's step reads, and the invariant says that its address is an entry of a table
whose base is a multiple of 4096 below 2^56. -/
theorem readsAreAlignedAndInTheTable : Obligations.ReadsAreAlignedAndInTheTable := by
  unfold Obligations.ReadsAreAlignedAndInTheTable
  intro s t hs hturn h
  obtain ⟨hb, -, -⟩ := State.coherent_iff.mp hs
  rw [step_of_blockTurn hturn] at h
  rcases blockStep_reads h with hnone | ⟨i, hc, hreads⟩
  · exact .inl hnone
  · have hwalking : s.cur.block.walking i = true := (Block.coherent_of_walkingLevel hc).symm.trans hb
    obtain ⟨scheme, base, segment, hconfig, ha, haligned, hbelow, haddr⟩ := Block.pteAddress_of_walking hwalking
    have hread : t.cur.reads = s.cur.reads ++ [⟨entryAddress base segment, 8⟩] := by
      rw [← haddr, ← schemeRow_entrySize scheme, ← hconfig]
      exact hreads
    have haddrNat := entryAddress_toNat hbelow segment
    have hsegment := segment.isLt
    exact .inr ⟨i, base, entryAddress base segment, hc, ha, hread, by omega, by omega, by omega, by omega⟩

end Sys2Proof.Machine
end

section
/-! SUPPORT. R153 against the steps of a call: what its loop does by the type of a PTE, and the level step, the leaf step
and the call start as its steps. -/

namespace Sys2Proof.Machine

/-! ## The type of an entry, from its flag bits (R73) -/

theorem pteType_eq_invalid {pte : Word} : pteType pte = .invalid ↔ pte.getLsbD 0 = false := by
  simp only [pteType, pteValid_eq, pteRead_eq, pteWrite_eq, pteExecute_eq]
  generalize pte.getLsbD 0 = v, pte.getLsbD 1 = r, pte.getLsbD 2 = w, pte.getLsbD 3 = x
  decide +revert

theorem pteType_eq_reserved {pte : Word} :
    pteType pte = .reserved ↔ pte.getLsbD 0 = true ∧ pte.getLsbD 1 = false ∧ pte.getLsbD 2 = true := by
  simp only [pteType, pteValid_eq, pteRead_eq, pteWrite_eq, pteExecute_eq]
  generalize pte.getLsbD 0 = v, pte.getLsbD 1 = r, pte.getLsbD 2 = w, pte.getLsbD 3 = x
  decide +revert

theorem pteType_eq_leaf {pte : Word} :
    pteType pte = .leaf ↔ pte.getLsbD 0 = true ∧ ¬ (pte.getLsbD 1 = false ∧ pte.getLsbD 2 = true) ∧
      (pte.getLsbD 1 = true ∨ pte.getLsbD 3 = true) := by
  simp only [pteType, pteValid_eq, pteRead_eq, pteWrite_eq, pteExecute_eq]
  generalize pte.getLsbD 0 = v, pte.getLsbD 1 = r, pte.getLsbD 2 = w, pte.getLsbD 3 = x
  decide +revert

theorem pteType_eq_pointer {pte : Word} :
    pteType pte = .pointer ↔ pte.getLsbD 0 = true ∧ pte.getLsbD 1 = false ∧ pte.getLsbD 2 = false ∧
      pte.getLsbD 3 = false := by
  simp only [pteType, pteValid_eq, pteRead_eq, pteWrite_eq, pteExecute_eq]
  generalize pte.getLsbD 0 = v, pte.getLsbD 1 = r, pte.getLsbD 2 = w, pte.getLsbD 3 = x
  decide +revert

/-! ## The loop of R153, by the answer and the type of the PTE -/

section
variable {va : Nat} {mem : MemRead} {i a k : Nat} {addr : Word} {bytes : PteBytes}

theorem refWalk_of_error {e : AccessErr} (haddr : addr = BitVec.ofNat 64 (a + refVpn va i * 8))
    (h : mem k addr = .error e) : refWalk va mem i a k = (.fault (.accessError e), [⟨addr, 8⟩]) := by
  subst haddr
  unfold refWalk
  simp only [h]

theorem refWalk_of_leaf (haddr : addr = BitVec.ofNat 64 (a + refVpn va i * 8)) (h : mem k addr = .bytes bytes)
    (ht : pteType (le bytes) = .leaf) : refWalk va mem i a k = (refLeaf va (le bytes).toNat i, [⟨addr, 8⟩]) := by
  subst haddr
  obtain ⟨hvalid, hreserved, hleaf⟩ := pteType_eq_leaf.mp ht
  unfold refWalk
  simp only [h, ← le_getLsbD, hvalid, hreserved, hleaf, if_true, if_false, Bool.true_eq_false, or_self, le_toNat]

theorem refWalk_of_refused (haddr : addr = BitVec.ofNat 64 (a + refVpn va i * 8)) (h : mem k addr = .bytes bytes)
    (ht : pteType (le bytes) = .invalid ∨ pteType (le bytes) = .reserved ∨ (pteType (le bytes) = .pointer ∧ i = 0)) :
    refWalk va mem i a k = (.fault .invalidEntry, [⟨addr, 8⟩]) := by
  subst haddr
  unfold refWalk
  rcases ht with ht | ht | ⟨ht, rfl⟩
  · simp only [h, ← le_getLsbD, pteType_eq_invalid.mp ht, true_or, if_true]
  · obtain ⟨-, hr, hw⟩ := pteType_eq_reserved.mp ht
    simp only [h, ← le_getLsbD, hr, hw, and_self, or_true, if_true]
  · obtain ⟨hv, hr, hw, hx⟩ := pteType_eq_pointer.mp ht
    simp only [h, ← le_getLsbD, hv, hr, hw, hx, Bool.true_eq_false, Bool.false_eq_true, and_false, or_self, if_false]

theorem refWalk_of_pointer (haddr : addr = BitVec.ofNat 64 (a + refVpn va (i + 1) * 8)) (h : mem k addr = .bytes bytes)
    (ht : pteType (le bytes) = .pointer) :
    refWalk va mem (i + 1) a k =
      ((refWalk va mem i (refPpn (le bytes).toNat * 4096) (k + 1)).1,
        ⟨addr, 8⟩ :: (refWalk va mem i (refPpn (le bytes).toNat * 4096) (k + 1)).2) := by
  subst haddr
  obtain ⟨hv, hr, hw, hx⟩ := pteType_eq_pointer.mp ht
  rw [refWalk]
  simp only [h, ← le_getLsbD, hv, hr, hw, hx, Bool.true_eq_false, Bool.false_eq_true, and_false, or_self, if_false,
    le_toNat]

end

/-! ## The leaf of R153 -/

/-- An aligned leaf's address in closed form: the frame of the PPN, with the virtual address below the page size
(R153). -/
theorem assembled_of_aligned {i : Nat} (hi : i < 4) (va : Word) {pte : Word}
    (h : pte.toNat / 2 ^ 10 % 2 ^ (9 * i) = 0) :
    assembled i va pte = BitVec.ofNat 64 (refPpn pte.toNat * 4096 + va.toNat % 2 ^ (12 + 9 * i)) := by
  have hdvd : 2 ^ (9 * i) ∣ refPpn pte.toNat :=
    (Nat.dvd_mod_iff (pow_dvd_pow 2 (by omega))).mpr (Nat.dvd_of_mod_eq_zero h)
  have hframe : refPpn pte.toNat * 4096 = 2 ^ (12 + 9 * i) * (refPpn pte.toNat / 2 ^ (9 * i)) := by
    rw [Nat.pow_add, Nat.mul_assoc, Nat.mul_div_cancel' hdvd, Nat.mul_comm]
  apply BitVec.eq_of_getLsbD_eq
  intro k hk
  rw [assembled_getLsbD hi va pte hk, BitVec.getLsbD_ofNat, decide_eq_true hk, Bool.true_and, hframe,
    Nat.testBit_two_pow_mul_add _ (Nat.mod_lt _ (Nat.two_pow_pos _))]
  by_cases hpage : k < 12 + 9 * i
  · rw [if_pos hpage, if_pos hpage, Nat.testBit_mod_two_pow, decide_eq_true hpage, Bool.true_and, BitVec.testBit_toNat]
  · have hbit : k - (12 + 9 * i) + 9 * i + 10 = k - 2 := by omega
    rw [if_neg hpage, if_neg hpage, Nat.testBit_div_two_pow, refPpn, Nat.testBit_mod_two_pow, Nat.testBit_div_two_pow,
      hbit, BitVec.testBit_toNat]
    by_cases htop : k < 56
    · rw [if_pos htop, decide_eq_true (by omega), Bool.true_and]
    · rw [if_neg htop, decide_eq_false (by omega), Bool.false_and]

/-- A leaf step answers what R153 answers for the leaf (R145-R150, R153). -/
theorem Block.leaf_follows_refLeaf {b : Block} {i : Nat} {scheme : Scheme} {pte va : Word} (hs : b.scheme = .holds scheme)
    (hi : i < refLevels scheme) (hp : b.pte = .holds pte) (hv : b.va = .holds va) :
    ∃ b', b.leaf i = .ok b' ∧ b'.ctrl.terminal = true ∧ b'.response = .holds (refLeaf va.toNat pte.toNat i) := by
  have h4 : i < 4 := Nat.lt_of_lt_of_le hi (refLevels_le scheme)
  have hlow : refPpn pte.toNat % 2 ^ (9 * i) = pte.toNat / 2 ^ 10 % 2 ^ (9 * i) :=
    Nat.mod_mod_of_dvd _ (pow_dvd_pow 2 (by omega))
  refine ⟨_, Block.leaf_of_written hs hi hp hv, ?_⟩
  by_cases h : pte.toNat / 2 ^ 10 % 2 ^ (9 * i) = 0
  · rw [if_pos h, refLeaf, hlow, if_neg (not_not.mpr h), assembled_of_aligned h4 va h]
    simp [Ctrl.terminal, pteRights, BitVec.testBit_toNat]
  · rw [if_neg h, refLeaf, hlow, if_pos h]
    exact ⟨rfl, rfl⟩

/-! ## A call at a level -/

/-- The registers of a call for `va` under a scheme, with the table at `base`. -/
structure Block.OnCall (b : Block) (scheme : Scheme) (va base : Word) : Prop where
  scheme_eq : b.scheme = .holds scheme
  va_eq : b.va = .holds va
  vpn_eq : b.vpn = .holds (vpnSegments (schemeRow scheme) va)
  a_eq : b.a = .holds base

/-- A call reads at the address that R153 reads at (R136). -/
theorem entryAddress_vpnSegment (scheme : Scheme) (base va : Word) (i : Nat) :
    entryAddress base (vpnSegment (schemeRow scheme) va i) = BitVec.ofNat 64 (base.toNat + refVpn va.toNat i * 8) := by
  rw [entryAddress, vpnSegment_toNat, refVpn]

/-- On its turn, with an accessor that answers, a call at a level of its scheme is about to take that level's step. -/
theorem State.atLevel_of_onCall {s : State} {scheme : Scheme} {va base : Word} {i : Nat} (hturn : s.blockTurn)
    (hc : s.cur.block.ctrl = .walkingLevel i) (hcall : s.cur.block.OnCall scheme va base) (hi : i < refLevels scheme)
    (hstalled : s.accessor.stalled = false) : s.atLevel scheme i base (vpnSegment (schemeRow scheme) va i) :=
  ⟨hturn, hc, hcall.scheme_eq, hcall.a_eq, ⟨_, hcall.vpn_eq, vpnSegments_get hi⟩, hstalled⟩

/-- What a level's step makes of an answer is what the loop of R153 makes of it: the end of the call, a leaf, or the level
below with another table (R135-R143, R153). -/
theorem Block.OnCall.afterAnswer_follows_refWalk {b : Block} {scheme : Scheme} {va base : Word}
    (h : b.OnCall scheme va base) {i k : Nat} {mem : MemRead} {addr : Word} {x : Answer}
    (haddr : addr = BitVec.ofNat 64 (base.toNat + refVpn va.toNat i * 8)) (hx : mem k addr = x) :
    (∃ r, (b.afterAnswer (schemeRow scheme) i x).ctrl.terminal = true ∧
        (b.afterAnswer (schemeRow scheme) i x).response = .holds r ∧
        refWalk va.toNat mem i base.toNat k = (r, [⟨addr, 8⟩])) ∨
      (∃ pte, (b.afterAnswer (schemeRow scheme) i x).ctrl = .leafFound i ∧
        (b.afterAnswer (schemeRow scheme) i x).pte = .holds pte ∧
        (b.afterAnswer (schemeRow scheme) i x).OnCall scheme va base ∧
        refWalk va.toNat mem i base.toNat k = (refLeaf va.toNat pte.toNat i, [⟨addr, 8⟩])) ∨
      ∃ below base', i = below + 1 ∧ (b.afterAnswer (schemeRow scheme) i x).ctrl = .walkingLevel below ∧
        (b.afterAnswer (schemeRow scheme) i x).OnCall scheme va base' ∧
        refWalk va.toNat mem i base.toNat k =
          ((refWalk va.toNat mem below base'.toNat (k + 1)).1,
            ⟨addr, 8⟩ :: (refWalk va.toNat mem below base'.toNat (k + 1)).2) := by
  cases x with
  | error e => exact .inl ⟨_, rfl, rfl, refWalk_of_error haddr hx⟩
  | bytes bytes =>
    rw [show b.afterAnswer (schemeRow scheme) i (.bytes bytes) =
      ({ b with pte := .holds (le bytes) } : Block).examine (schemeRow scheme) i (le bytes) from rfl]
    rcases Block.examine_cases { b with pte := .holds (le bytes) } (schemeRow scheme) i (le bytes) with
      ⟨he, ht⟩ | ⟨he, ht⟩ | ⟨below, rfl, ht, he⟩
    · rw [he]
      exact .inl ⟨_, rfl, rfl, refWalk_of_refused haddr hx ht⟩
    · rw [he]
      exact .inr (.inl ⟨_, rfl, rfl, ⟨h.scheme_eq, h.va_eq, h.vpn_eq, h.a_eq⟩, refWalk_of_leaf haddr hx ht⟩)
    · have hbase : (frameBase (schemeRow scheme) (ptePpn (le bytes))).toNat = refPpn (le bytes).toNat * 4096 := by
        rw [frameBase_toNat, ptePpn_toNat, refPpn]
      rw [he]
      refine .inr (.inr ⟨below, frameBase (schemeRow scheme) (ptePpn (le bytes)), rfl, rfl,
        ⟨h.scheme_eq, h.va_eq, h.vpn_eq, rfl⟩, ?_⟩)
      rw [hbase]
      exact refWalk_of_pointer haddr hx ht

/-! ## The start of a call -/

/-- A call starts as R153 does: over at once with mode 0, else at the top level with the root table (R133, R134, R153). -/
theorem Block.startCall_follows_refTranslate (b : Block) (scheme : Scheme) (va tc : Word) (mem : MemRead) :
    ((b.startCall scheme va tc).ctrl.terminal = true ∧
        ∃ r, (b.startCall scheme va tc).response = .holds r ∧ refTranslate scheme va tc mem = (r, [])) ∨
      ∃ base : Word, (b.startCall scheme va tc).ctrl = .walkingLevel (refLevels scheme - 1) ∧
        (b.startCall scheme va tc).OnCall scheme va base ∧
        refTranslate scheme va tc mem = refWalk va.toNat mem (refLevels scheme - 1) base.toNat 0 := by
  by_cases hmode : tc.toNat / 2 ^ 60 = 0
  · rw [Block.startCall_of_modeZero hmode, refTranslate, if_pos hmode]
    exact .inl ⟨rfl, _, rfl, rfl⟩
  · have hbase : (frameBase (schemeRow scheme) (tcRootPPN tc)).toNat = tc.toNat % 2 ^ 44 * 4096 := by
      rw [frameBase_toNat, tcRootPPN_toNat]
    rw [Block.startCall_of_accepted hmode, refTranslate, if_neg hmode, ← hbase, ← schemeRow_levels]
    exact .inr ⟨_, rfl, ⟨rfl, rfl, rfl, rfl⟩, rfl⟩

end Sys2Proof.Machine
end

section
/-! SUPPORT. The run of a call whose reads get the answers of a list (O51). -/

namespace Sys2Proof.Machine

theorem run_succ_of_next (M : Host.Core) {s t : M.State} (h : M.step s = .next t) (n : Nat) :
    M.run (n + 1) s = M.run n t := by
  simp only [Host.Core.run, h]

theorem core_run_succ {s t : State} (h : step s = .next t) (n : Nat) : core.run (n + 1) s = core.run n t :=
  run_succ_of_next core h n

/-- The descriptor of a TRANSLATE operation decodes to it (R76). -/
theorem decode_encode_translateInstr (scheme : Scheme) (va : Word) :
    decode (encode (translateInstr scheme va)) = .ok (translateInstr scheme va) := by
  cases scheme <;> rfl

/-- Turns of the block, and answers given to its reads, alone. -/
def OracleOnly (turns : List Turn) : Prop := ∀ turn ∈ turns, turn = .block ∨ ∃ x, turn = .forceAnswer x

/-- The turns under which a call gets its answers, and then two turns of the block. -/
def answerTurns (answers : List Answer) : List Turn :=
  (answers.flatMap fun x => [.forceAnswer x, .block]) ++ [.block, .block]

theorem answerTurns_oracleOnly (answers : List Answer) : OracleOnly (answerTurns answers) := by
  intro turn hturn
  simp only [answerTurns, List.mem_append, List.mem_flatMap, List.mem_cons, List.not_mem_nil, or_false, or_self] at hturn
  rcases hturn with ⟨x, -, rfl | rfl⟩ | rfl
  · exact .inr ⟨x, rfl⟩
  · exact .inl rfl
  · exact .inl rfl

theorem two_le_count_answerTurns (answers : List Answer) : 2 ≤ (answerTurns answers).count .block := by
  simp [answerTurns, List.count_append]

/-- The run of all the turns listed ends with the block as after reset and nothing waiting, these results delivered and
these reads issued, and memory and the TC register as before. -/
def State.EndsWith (s : State) (results : List Result) (reads : List ReadRequest) : Prop :=
  ∃ t : State, core.run s.schedule.length s = .next t ∧ t.cur.block = Block.reset ∧ t.cur.requests = [] ∧
    t.cur.delivered = s.cur.delivered ++ results ∧ t.cur.reads = s.cur.reads ++ reads ∧
    t.accessor.mem = s.accessor.mem ∧ t.tcRegister = s.tcRegister

/-- The state with its turn to force an answer taken. -/
def State.answerForced (s : State) (x : Answer) (rest : List Turn) : State :=
  { s with accessor := { s.accessor with forced := some x }, schedule := rest }

theorem State.EndsWith.of_forceAnswer {s : State} {x : Answer} {rest : List Turn} {results : List Result}
    {reads : List ReadRequest} (hsch : s.schedule = .forceAnswer x :: rest)
    (h : (s.answerForced x rest).EndsWith results reads) : s.EndsWith results reads := by
  have hstep : step s = .next (s.answerForced x rest) := by rw [step, hsch]; rfl
  obtain ⟨t, hrun, ht⟩ := h
  refine ⟨t, ?_, ht⟩
  rw [hsch, List.length_cons, core_run_succ hstep]
  exact hrun

/-- A turn of the block first: what it delivers and reads comes first. -/
theorem State.EndsWith.of_block {s t : State} {rest : List Turn} {new results : List Result}
    {newReads reads : List ReadRequest} (hsch : s.schedule = .block :: rest) (hstep : blockStep s.turnTaken = .next t)
    (hdelivered : t.cur.delivered = s.cur.delivered ++ new) (hreads : t.cur.reads = s.cur.reads ++ newReads)
    (h : t.EndsWith results reads) : s.EndsWith (new ++ results) (newReads ++ reads) := by
  obtain ⟨hmem, -, htc, -, hschedule⟩ := blockStep_frame hstep
  have hrest : t.schedule = rest := by rw [hschedule, State.turnTaken, hsch]; rfl
  obtain ⟨u, hrun, hblock, hrequests, hdelivered', hreads', hmem', htc'⟩ := h
  refine ⟨u, ?_, hblock, hrequests, ?_, ?_, hmem'.trans hmem, htc'.trans htc⟩
  · rw [hsch, List.length_cons, core_run_succ ((step_of_blockTurn (.inr ⟨rest, hsch⟩)).trans hstep), ← hrest]
    exact hrun
  · rw [hdelivered', hdelivered, List.append_assoc]
  · rw [hreads', hreads, List.append_assoc]

/-- An idle block with no request waits until the turns listed are over (R191). -/
theorem State.EndsWith.of_idle {turns : List Turn} (hturns : OracleOnly turns) {s : State} (hsch : s.schedule = turns)
    (hb : s.cur.block = Block.reset) (hr : s.cur.requests = []) : s.EndsWith [] [] := by
  induction turns generalizing s with
  | nil =>
    refine ⟨s, ?_, hb, hr, (List.append_nil _).symm, (List.append_nil _).symm, rfl, rfl⟩
    rw [hsch]
    rfl
  | cons turn rest ih =>
    have hrest : OracleOnly rest := fun u hu => hturns u (List.mem_cons_of_mem turn hu)
    rcases hturns turn List.mem_cons_self with rfl | ⟨x, rfl⟩
    · have hwait : blockStep s.turnTaken = .next s.turnTaken :=
        blockStep_of_waiting (s := s.turnTaken) (congrArg Block.ctrl hb) hr
      exact .of_block (new := []) (newReads := []) hsch hwait (List.append_nil _).symm (List.append_nil _).symm
        (ih hrest (congrArg List.tail hsch) hb hr)
    · exact .of_forceAnswer hsch (ih hrest rfl hb hr)

/-- Answers forced before the block's next turn only change what the accessor holds for its next read. -/
theorem State.EndsWith.of_next_block_turn {results : List Result} {reads : List ReadRequest} {turns : List Turn}
    (hturns : OracleOnly turns) (hcount : 0 < turns.count .block) {s : State} (hsch : s.schedule = turns)
    (h : ∀ forced rest, OracleOnly rest → rest.count .block + 1 = turns.count .block →
      ({ s with accessor := { s.accessor with forced := forced }, schedule := .block :: rest } : State).EndsWith
        results reads) : s.EndsWith results reads := by
  induction turns generalizing s with
  | nil => simp at hcount
  | cons turn rest ih =>
    have hrest : OracleOnly rest := fun u hu => hturns u (List.mem_cons_of_mem turn hu)
    rcases hturns turn List.mem_cons_self with rfl | ⟨x, rfl⟩
    · have hfirst := h s.accessor.forced rest hrest (by simp)
      rwa [← hsch] at hfirst
    · have hsame : (Turn.forceAnswer x :: rest).count .block = rest.count .block := by simp
      rw [hsame] at hcount h
      exact .of_forceAnswer hsch (ih hrest hcount rfl h)

/-- A call that is over delivers its response and waits (R131, R178). -/
theorem State.EndsWith.of_terminal {s : State} (hturns : OracleOnly s.schedule) (hcount : 0 < s.schedule.count .block)
    (hc : s.cur.block.ctrl.terminal = true) {r : Response} (hresponse : s.cur.block.response = .holds r)
    (hr : s.cur.requests = []) : s.EndsWith [.translation r] [] := by
  refine .of_next_block_turn hturns hcount rfl fun forced rest hrest _ => ?_
  let ended : State := { s with accessor := { s.accessor with forced := forced }, schedule := rest }
  have hstep : blockStep ended = .next ((ended.deliver (.translation r)).withBlock Block.reset) := by
    rw [blockStep_of_terminal (s := ended) hc, State.deliverResponse_of_holds (s := ended) hresponse]
  exact .of_block (new := [.translation r]) (newReads := []) rfl hstep rfl (List.append_nil _).symm
    (.of_idle hrest rfl rfl hr)

/-- A leaf found is answered as R153 answers it, and the response delivered (R145-R150). -/
theorem State.EndsWith.of_leafFound {s : State} (hturns : OracleOnly s.schedule) (hcount : 2 ≤ s.schedule.count .block)
    {i : Nat} {scheme : Scheme} {pte va base : Word} (hi : i < refLevels scheme) (hc : s.cur.block.ctrl = .leafFound i)
    (hp : s.cur.block.pte = .holds pte) (hcall : s.cur.block.OnCall scheme va base) (hr : s.cur.requests = []) :
    s.EndsWith [.translation (refLeaf va.toNat pte.toNat i)] [] := by
  refine .of_next_block_turn hturns (by omega) rfl fun forced rest hrest hcount' => ?_
  obtain ⟨b, hleaf, hterminal, hresponse⟩ := Block.leaf_follows_refLeaf hcall.scheme_eq hi hp hcall.va_eq
  let found : State := { s with accessor := { s.accessor with forced := forced }, schedule := rest }
  have hstep : blockStep found = .next (found.withBlock b) :=
    (blockStep_of_leafFound (s := found) hc).trans (leafStep_of_ok hleaf)
  have hdelivery : 0 < rest.count .block := by omega
  exact .of_block (new := []) (newReads := []) rfl hstep (List.append_nil _).symm (List.append_nil _).symm
    (.of_terminal hrest hdelivery hterminal hresponse hr)

/-- The state after a level's step that got a forced answer, both turns taken. -/
def State.levelAnswered (s : State) (scheme : Scheme) (va base : Word) (i : Nat) (x : Answer) (rest : List Turn) :
    State :=
  (s.answerForced x (.block :: rest)).levelTaken (entryAddress base (vpnSegment (schemeRow scheme) va i))
    (s.cur.block.afterAnswer (schemeRow scheme) i x)

/-- A level whose answer is forced reads once, and goes where that answer leads (R135). -/
theorem State.EndsWith.of_answered_level {s : State} {scheme : Scheme} {va base : Word} {i : Nat} {x : Answer}
    {rest : List Turn} {results : List Result} {reads : List ReadRequest} (hi : i < refLevels scheme)
    (hsch : s.schedule = .forceAnswer x :: .block :: rest) (hc : s.cur.block.ctrl = .walkingLevel i)
    (hcall : s.cur.block.OnCall scheme va base) (hstalled : s.accessor.stalled = false)
    (h : (s.levelAnswered scheme va base i x rest).EndsWith results reads) :
    s.EndsWith results (⟨entryAddress base (vpnSegment (schemeRow scheme) va i), 8⟩ :: reads) := by
  have hturn : (s.answerForced x (.block :: rest)).blockTurn := .inr ⟨rest, rfl⟩
  have hstep : blockStep (s.answerForced x (.block :: rest)).turnTaken =
      .next (s.levelAnswered scheme va base i x rest) :=
    (step_of_blockTurn hturn).symm.trans (step_of_atLevel (State.atLevel_of_onCall hturn hc hcall hi hstalled))
  exact .of_forceAnswer hsch (.of_block (new := []) (newReads := [_]) rfl hstep (List.append_nil _).symm rfl h)

/-- A call at level `i`, given an answer for each level still to come, ends as the loop of R153 does on these answers. -/
theorem State.EndsWith.of_walkingLevel {scheme : Scheme} {va : Word} {mem : MemRead} {i : Nat}
    (hi : i < refLevels scheme) {answers : List Answer} (hlength : answers.length = i + 1) {k : Nat}
    (hmem : ∀ j addr x, answers[j]? = some x → mem (k + j) addr = x) {s : State} {base : Word}
    (hsch : s.schedule = answerTurns answers) (hc : s.cur.block.ctrl = .walkingLevel i)
    (hcall : s.cur.block.OnCall scheme va base) (hr : s.cur.requests = []) (hstalled : s.accessor.stalled = false) :
    s.EndsWith [.translation (refWalk va.toNat mem i base.toNat k).1] (refWalk va.toNat mem i base.toNat k).2 := by
  induction answers generalizing s i k base with
  | nil => simp at hlength
  | cons x rest ih =>
    have hsch' : s.schedule = .forceAnswer x :: .block :: answerTurns rest := hsch
    have hturns : OracleOnly (answerTurns rest) := answerTurns_oracleOnly rest
    have hcount : 2 ≤ (answerTurns rest).count .block := two_le_count_answerTurns rest
    rcases hcall.afterAnswer_follows_refWalk (mem := mem) (k := k) (entryAddress_vpnSegment scheme base va i)
        (hmem 0 _ x rfl) with
      ⟨r, hterminal, hresponse, href⟩ | ⟨pte, hc', hp, hcall', href⟩ | ⟨below, base', rfl, hc', hcall', href⟩
    · rw [href]
      exact .of_answered_level hi hsch' hc hcall hstalled
        (.of_terminal hturns (Nat.lt_of_lt_of_le Nat.two_pos hcount) hterminal hresponse hr)
    · rw [href]
      exact .of_answered_level hi hsch' hc hcall hstalled (.of_leafFound hturns hcount hi hc' hp hcall' hr)
    · have hmem' (j : Nat) (addr : Word) (y : Answer) (hy : rest[j]? = some y) : mem (k + 1 + j) addr = y := by
        rw [Nat.add_assoc, Nat.add_comm 1 j]
        exact hmem (j + 1) addr y hy
      rw [href]
      exact .of_answered_level hi hsch' hc hcall hstalled
        (ih (Nat.lt_of_succ_lt hi) (Nat.succ.inj hlength) hmem' rfl hc' hcall' hr hstalled)

/-- The oracle answers from its list (R58, R63). -/
theorem oracle_of_getElem? {answers : List Answer} {j : Nat} {x : Answer} (h : answers[j]? = some x) (addr : Word) :
    oracle answers j addr = x := by
  simp only [oracle, h]

/-- Settles O51: the call start, the levels and the leaf follow R153 on the answers given, and the turns left over change
nothing. -/
theorem responseIsAFunctionOfTheAnswers : Obligations.ResponseIsAFunctionOfTheAnswers := by
  unfold Obligations.ResponseIsAFunctionOfTheAnswers
  intro scheme va s answers hb hr hstalled hlength hsch
  let accepted : State := { s.turnTaken with cur := { s.cur with requests := [] } }
  let t := (accepted.sampled s.tcRegister).withBlock (s.cur.block.startCall scheme va s.tcRegister)
  have hidle : s.cur.block.ctrl = .idle := congrArg Block.ctrl hb
  have hstep : blockStep s.turnTaken = .next t :=
    (blockStep_of_operation (s := s.turnTaken) hidle hr (decode_encode_translateInstr scheme va)).trans
      (exec_translateInstr_of_idle scheme va (s := accepted) hidle)
  have hschedule : t.schedule = answerTurns answers := congrArg List.tail hsch
  have hturns : OracleOnly t.schedule := hschedule ▸ answerTurns_oracleOnly answers
  have hcount : 2 ≤ t.schedule.count .block := hschedule ▸ two_le_count_answerTurns answers
  have hends : t.EndsWith [.translation (refTranslate scheme va s.tcRegister (oracle answers)).1]
      (refTranslate scheme va s.tcRegister (oracle answers)).2 := by
    rcases Block.startCall_follows_refTranslate s.cur.block scheme va s.tcRegister (oracle answers) with
      ⟨hterminal, r, hresponse, href⟩ | ⟨base, hc, hcall, href⟩
    · rw [href]
      exact .of_terminal hturns (by omega) hterminal hresponse rfl
    · have hlevels := refLevels_pos scheme
      rw [href]
      exact .of_walkingLevel (by omega) (by omega)
        (fun j addr x hx => by rw [Nat.zero_add]; exact oracle_of_getElem? hx addr) hschedule hc hcall rfl hstalled
  rw [← hsch]
  exact State.EndsWith.of_block (new := []) (newReads := []) hsch hstep (List.append_nil _).symm
    (List.append_nil _).symm hends

end Sys2Proof.Machine
end

section
/-! SUPPORT. Descriptors: which of them decode, and to what (O11, O12, O13, O14). -/

namespace Sys2Proof

/-- An op code that is in the table leaves only the operands to read (R76). -/
theorem decode_code (c : Opcode) (xs : List Operand) : decode ⟨c.code, xs⟩ = decodeOperands c xs := by
  simp only [decode, Opcode.ofCode_code]

/-- An op code that is not in the table is refused before the operands are looked at (R78). -/
theorem decode_of_unassigned {op : Byte} (h : op ∉ Opcode.all.map Opcode.code) (xs : List Operand) :
    decode ⟨op, xs⟩ = .error (.unassignedOp op) := by
  have hnone : Opcode.ofCode op = none :=
    List.find?_eq_none.mpr fun c hc hcode => h (List.mem_map.mpr ⟨c, hc, eq_of_beq hcode⟩)
  simp only [decode, hnone]

/-- The operands of a well-formed instruction are read back; of all operands only a selector has values that are not
(R76, R78). -/
theorem decodeOperands_operands {i : Instr} (h : i.wf = true) : decodeOperands i.opcode i.operands = .ok i := by
  cases i with
  | schemeLookup n => exact if_pos (of_decide_eq_true h)
  | bfGet word bitIndex size => rfl
  | bfSet word bitIndex size value => rfl
  | bfValue word => rfl
  | tcDecode raw => rfl
  | pteDecode b0 b1 b2 b3 b4 b5 b6 b7 => rfl
  | translateSv39 va => rfl
  | translateSv48 va => rfl

/-- Operands that are read as an instruction are that instruction's, under its own operation (R76, R78). -/
theorem eq_operands_of_decodeOperands {c : Opcode} {xs : List Operand} {i : Instr} (h : decodeOperands c xs = .ok i) :
    c = i.opcode ∧ xs = i.operands ∧ i.wf = true := by
  unfold decodeOperands at h
  split at h
  case h_6 n =>
    split at h
    · next hn =>
      cases h
      exact ⟨rfl, rfl, decide_eq_true hn⟩
    · cases h
  case h_9 => cases h
  all_goals
    cases h
    exact ⟨rfl, rfl, rfl⟩

/-- Which descriptors decode to an instruction: its own, if it is well-formed, and no other (R76, R78). -/
theorem decode_eq_ok_iff {d : Descriptor} {i : Instr} : decode d = .ok i ↔ encode i = d ∧ i.wf = true := by
  constructor
  · intro h
    obtain ⟨op, xs⟩ := d
    cases hc : Opcode.ofCode op with
    | none => simp only [decode, hc, reduceCtorEq] at h
    | some c =>
      obtain rfl := Opcode.code_of_ofCode hc
      rw [decode_code] at h
      obtain ⟨rfl, rfl, hwf⟩ := eq_operands_of_decodeOperands h
      exact ⟨rfl, hwf⟩
  · rintro ⟨rfl, hwf⟩
    exact (decode_code _ _).trans (decodeOperands_operands hwf)

theorem decode_encode {i : Instr} (h : i.wf = true) : decode (encode i) = .ok i := decode_eq_ok_iff.mpr ⟨rfl, h⟩

/-- Settles O11: the op code leads back to the operation, and the operation reads its own operands back. -/
theorem decodeOfEncode : Obligations.DecodeOfEncode := by
  unfold Obligations.DecodeOfEncode
  exact fun _ => decode_encode

/-- Settles O12: the code of a descriptor that decodes determines the operation, and the operation the operands. -/
theorem encodeOfDecode : Obligations.EncodeOfDecode := by
  unfold Obligations.EncodeOfDecode
  exact fun _ _ => decode_eq_ok_iff.mp

/-- Settles O13: the eight descriptors are the encodings of the eight instructions. -/
theorem opCodesStandForTheirOperations : Obligations.OpCodesStandForTheirOperations := by
  unfold Obligations.OpCodesStandForTheirOperations
  exact ⟨decode_encode (i := .bfGet _ _ _) rfl, decode_encode (i := .bfSet _ _ _ _) rfl,
    decode_encode (i := .bfValue _) rfl, decode_encode (i := .tcDecode _) rfl,
    decode_encode (i := .pteDecode _ _ _ _ _ _ _ _) rfl, decode_encode (i := .schemeLookup 1) rfl,
    decode_encode (i := .translateSv39 _) rfl, decode_encode (i := .translateSv48 _) rfl⟩

end Sys2Proof

namespace Sys2Proof.Machine

/-- Settles O14: the eight codes of the list are those of the table, and the step's intake refuses what the decoder
rejects. -/
theorem unassignedCodesAreRefused : Obligations.UnassignedCodesAreRefused := by
  unfold Obligations.UnassignedCodesAreRefused
  intro op xs hop
  have hdecode : decode ⟨op, xs⟩ = .error (.unassignedOp op) := decode_of_unassigned hop xs
  refine ⟨hdecode, fun s rest hturn hidle hrequests => ?_⟩
  rw [step_of_blockTurn hturn]
  exact blockStep_of_bad (s := s.turnTaken) hidle hrequests hdecode

end Sys2Proof.Machine
end

section
/-! SUPPORT. Which bits of a PTE and of a virtual address count (O10, O35, O36). -/

namespace Sys2Proof.Machine

/-- Settles O10: one equivalence for each type. -/
theorem pteTypeFromTheFlagBits : Obligations.PteTypeFromTheFlagBits := by
  unfold Obligations.PteTypeFromTheFlagBits
  exact fun _ => ⟨pteType_eq_invalid, pteType_eq_reserved, pteType_eq_pointer, pteType_eq_leaf⟩

/-- Settles O35: no range of the assembly fails, and the assembled address is known bit by bit. -/
theorem assembledRangesTileTheAddress : Obligations.AssembledRangesTileTheAddress := by
  unfold Obligations.AssembledRangesTileTheAddress
  intro scheme i va pte hi
  have h4 : i < 4 := Nat.lt_of_lt_of_le hi (refLevels_le scheme)
  exact ⟨assembled i va pte, assemble_eq hi va pte, fun _ hk => assembled_getLsbD h4 va pte hk⟩

/-! ## Words that agree on the bits that count (R80) -/

/-- A `get` depends only on the bits of its range (R100). -/
theorem field_congr {p q : Word} {bitIndex size : Nat}
    (h : ∀ k, k < size → p.getLsbD (bitIndex + k) = q.getLsbD (bitIndex + k)) :
    field p bitIndex size = field q bitIndex size := by
  apply BitVec.eq_of_getLsbD_eq
  intro k _
  rw [field_getLsbD, field_getLsbD]
  by_cases hk : k < size
  · rw [h k hk]
  · simp only [hk, decide_false, Bool.and_false, Bool.false_and]

section
variable {p q : Word} (h : samePteBits p q)
include h

/-- A `get` inside the PPN does not see the undecoded bits (R71). -/
theorem field_eq_of_samePteBits {bitIndex size : Nat} (hlow : 10 ≤ bitIndex) (hhigh : bitIndex + size ≤ 54) :
    field p bitIndex size = field q bitIndex size :=
  field_congr fun k hk => h (bitIndex + k) (.inr ⟨by omega, by omega⟩)

theorem ptePpn_eq_of_samePteBits : ptePpn p = ptePpn q := by
  rw [ptePpn, ptePpn, field_eq_of_samePteBits h (by decide) (by decide)]

theorem pteRights_eq_of_samePteBits : pteRights p = pteRights q := by
  simp only [pteRights, pteRead_eq, pteWrite_eq, pteExecute_eq, h 1 (by decide), h 2 (by decide), h 3 (by decide)]

theorem pteType_eq_of_samePteBits : pteType p = pteType q := by
  simp only [pteType, pteValid_eq, pteRead_eq, pteWrite_eq, pteExecute_eq, h 0 (by decide), h 1 (by decide),
    h 2 (by decide), h 3 (by decide)]

/-- The checks of a level look at a PTE's type, and a descent at its PPN (R138-R143). -/
theorem Block.examine_eq_of_samePteBits (b : Block) (cfg : SchemeConfig) (i : Nat) :
    b.examine cfg i p = b.examine cfg i q := by
  simp only [Block.examine, Block.descend, pteType_eq_of_samePteBits h, ptePpn_eq_of_samePteBits h]

theorem superpageAligned_eq_of_samePteBits {scheme : Scheme} {i : Nat} (hi : i < refLevels scheme) :
    superpageAligned (schemeRow scheme) i p = superpageAligned (schemeRow scheme) i q := by
  have h4 := refLevels_le scheme
  rw [superpageAligned_eq hi, superpageAligned_eq hi, ← field_toNat, ← field_toNat,
    field_eq_of_samePteBits h (by decide) (by omega)]

/-- Bit `k` of the address comes from bit `k` of the virtual address or bit `k - 2` of the PTE, and these count (R75). -/
theorem assembled_eq_of_sameBits {scheme : Scheme} {i : Nat} (hi : i < refLevels scheme) {v w : Word}
    (hva : sameVaBits scheme v w) : assembled i v p = assembled i w q := by
  have h4 : i < 4 := Nat.lt_of_lt_of_le hi (refLevels_le scheme)
  apply BitVec.eq_of_getLsbD_eq
  intro k hk
  rw [assembled_getLsbD h4 v p hk, assembled_getLsbD h4 w q hk]
  by_cases hpage : k < 12 + 9 * i
  · rw [if_pos hpage, if_pos hpage, hva k (by omega)]
  · rw [if_neg hpage, if_neg hpage]
    by_cases htop : k < 56
    · rw [if_pos htop, if_pos htop, h (k - 2) (.inr ⟨by omega, by omega⟩)]
    · rw [if_neg htop, if_neg htop]

end

/-- Each segment of a virtual address lies below its valid width (R33, R74). -/
theorem vpnSegments_eq_of_sameVaBits {scheme : Scheme} {v w : Word} (h : sameVaBits scheme v w) :
    vpnSegments (schemeRow scheme) v = vpnSegments (schemeRow scheme) w := by
  refine List.map_congr_left fun i hi => ?_
  rw [schemeRow_levels, List.mem_range] at hi
  rw [vpnSegment, vpnSegment, schemeRow_vpnWidth, field_congr fun k hk => h (12 + i * 9 + k) (by omega)]

/-- Settles O36: every check and result is made of decoded bits. -/
theorem ignoredBitsDoNotMatter : Obligations.IgnoredBitsDoNotMatter := by
  unfold Obligations.IgnoredBitsDoNotMatter
  intro scheme i pte pte' va va' hi hpte hva
  refine ⟨fun b => Block.examine_eq_of_samePteBits hpte b _ i, superpageAligned_eq_of_samePteBits hpte hi, ?_,
    pteRights_eq_of_samePteBits hpte, vpnSegments_eq_of_sameVaBits hva⟩
  rw [assemble_eq hi, assemble_eq hi, assembled_eq_of_sameBits hpte hi hva]

end Sys2Proof.Machine
end

section
/-! SUPPORT. The datapath operations: BF_GET, BF_SET and BF_VALUE, the two decoders and the scheme table, and the bit
ranges of a walk (O1, O2, O3, O4, O6, O7, O8, O48). -/

namespace Sys2Proof.Machine

/-! ## The result that each operation delivers in Idle -/

section
variable {s : State} (h : s.cur.block.ctrl = .idle)
include h

theorem exec_bfGet_of_idle (word : Word) (bitIndex size : Nat) :
    exec (.bfGet word bitIndex size) s = .next (s.deliver (rangeResult (bfGet word bitIndex size))) :=
  State.accept_of_idle _ h

theorem exec_bfSet_of_idle (word : Word) (bitIndex size value : Nat) :
    exec (.bfSet word bitIndex size value) s = .next (s.deliver (rangeResult (bfSet word bitIndex size value))) :=
  State.accept_of_idle _ h

theorem exec_bfValue_of_idle (word : Word) : exec (.bfValue word) s = .next (s.deliver (.word word)) :=
  State.accept_of_idle _ h

theorem exec_tcDecode_of_idle (raw : Word) : exec (.tcDecode raw) s = .next (s.deliver (.tcFields (tcFields raw))) :=
  State.accept_of_idle _ h

theorem exec_pteDecode_of_idle (b0 b1 b2 b3 b4 b5 b6 b7 : Byte) :
    exec (.pteDecode b0 b1 b2 b3 b4 b5 b6 b7) s =
      .next (s.deliver (.pteFields (pteFields ⟨b0, b1, b2, b3, b4, b5, b6, b7⟩))) :=
  State.accept_of_idle _ h

/-- A selector of the table delivers its row (R109). -/
theorem exec_schemeLookup_of_idle (scheme : Scheme) :
    exec (.schemeLookup (schemeSelector scheme)) s = .next (s.deliver (.schemeRow (schemeRow scheme))) := by
  cases scheme with
  | sv39 => exact State.accept_of_idle _ h
  | sv48 => exact State.accept_of_idle _ h

end

/-- A selector outside the table is refused in every state (R78). -/
theorem exec_schemeLookup_of_ge {n : Nat} (h : 2 ≤ n) (s : State) :
    exec (.schemeLookup n) s = .refused (.badSelector n) := by
  simp only [exec, execSchemeLookup, schemeOfSelector_ge h]

/-! ## `get` and `set` -/

/-- A `get`, as the word of a number (R100). -/
theorem field_eq_ofNat (word : Word) (bitIndex size : Nat) :
    field word bitIndex size = BitVec.ofNat 64 (word.toNat / 2 ^ bitIndex % 2 ^ size) :=
  eq_ofNat_of_toNat (field_toNat word bitIndex size)

/-- What BF_GET reports, by whether its range passes bit 64 (R100, R101). -/
theorem rangeResult_bfGet (word : Word) (bitIndex size : Nat) :
    rangeResult (bfGet word bitIndex size) =
      if 64 < bitIndex + size then .rangeViolation
      else .word (BitVec.ofNat 64 (word.toNat / 2 ^ bitIndex % 2 ^ size)) := by
  by_cases h : 64 < bitIndex + size
  · rw [bfGet_of_gt word h, if_pos h, rangeResult]
  · rw [bfGet_of_le word (Nat.le_of_not_lt h), if_neg h, rangeResult, field_eq_ofNat]

/-- A `get` of the range just set gives back the low bits of the value (R103). -/
theorem field_withField_same (word : Word) {bitIndex size : Nat} (value : Nat) (h : bitIndex + size ≤ 64) :
    field (withField word bitIndex size value) bitIndex size = BitVec.ofNat 64 (value % 2 ^ size) := by
  apply BitVec.eq_of_getLsbD_eq
  intro k hk
  rw [field_getLsbD, BitVec.getLsbD_ofNat, Nat.testBit_mod_two_pow]
  by_cases hin : k < size
  · rw [withField_getLsbD _ _ _ _ _ (by omega), if_pos (by omega), Nat.add_sub_cancel_left, Bool.and_assoc]
  · simp only [hin, decide_false, Bool.and_false, Bool.false_and]

/-- A `set` leaves every bit outside its range as it is (R103). -/
theorem field_withField_outside (word : Word) {bitIndex size k : Nat} (value : Nat) (hk : k < 64)
    (hout : ¬ (bitIndex ≤ k ∧ k < bitIndex + size)) :
    field (withField word bitIndex size value) k 1 = field word k 1 := by
  refine field_congr fun j hj => ?_
  obtain rfl : j = 0 := Nat.lt_one_iff.mp hj
  rw [Nat.add_zero, withField_getLsbD _ _ _ _ _ hk, if_neg hout]

/-- A `get` of all 64 bits is the word (R104). -/
theorem bfGet_whole (word : Word) : bfGet word 0 64 = some (bfValue word) := by
  have hfield : field word 0 64 = word := BitVec.eq_of_toNat_eq <| by
    rw [field_toNat, Nat.pow_zero, Nat.div_one, Nat.mod_eq_of_lt word.isLt]
  rw [bfGet_of_le word (by decide), hfield, bfValue]

/-- Settles O1: the range fits or it does not, and a range that fits is a quotient and a remainder. -/
theorem bfGetReturnsTheRange : Obligations.BfGetReturnsTheRange := by
  unfold Obligations.BfGetReturnsTheRange
  intro word bitIndex size s hidle
  rw [exec_bfGet_of_idle hidle, rangeResult_bfGet]
  rfl

/-- Settles O2: a range that fits gives the word of `withField`, which is known bit by bit. -/
theorem bfSetReplacesTheRange : Obligations.BfSetReplacesTheRange := by
  unfold Obligations.BfSetReplacesTheRange
  intro word bitIndex size value s hidle
  refine ⟨_, exec_bfSet_of_idle hidle word bitIndex size value, fun hpast => ?_, fun hfits => ?_⟩
  · rw [bfSet_of_gt word value hpast, rangeResult]
  · exact ⟨withField word bitIndex size value, by rw [bfSet_of_le word value hfits, rangeResult],
      fun k hk => withField_getLsbD word bitIndex size value k hk⟩

/-- Settles O3: the `get` inside the range just set, and the `get` of one bit outside it. -/
theorem bitfieldRoundTrip : Obligations.BitfieldRoundTrip := by
  unfold Obligations.BitfieldRoundTrip
  intro v bitIndex size r hfits
  refine ⟨withField v bitIndex size r, bfSet_of_le v r hfits, ?_, fun k hk hout => ?_⟩
  · rw [bfGet_of_le _ hfits, field_withField_same v r hfits]
  · rw [bfGet_of_le _ hk, bfGet_of_le _ hk, field_withField_outside v r hk hout]

/-- Settles O4: the `get` of all 64 bits fits and is the word. -/
theorem bfValueIsTheWholeWord : Obligations.BfValueIsTheWholeWord := by
  unfold Obligations.BfValueIsTheWholeWord
  intro word s hidle
  refine ⟨exec_bfValue_of_idle hidle word, ?_⟩
  rw [exec_bfGet_of_idle hidle, bfGet_whole, exec_bfValue_of_idle hidle, rangeResult, bfValue]

/-! ## The decoders and the table -/

/-- The fields of a TC value, as the bit vectors of numbers (R70, R106). -/
theorem tcFields_eq (raw : Word) :
    tcFields raw =
      { mode := BitVec.ofNat 4 (raw.toNat / 2 ^ 60)
        addressSpaceId := BitVec.ofNat 16 (raw.toNat / 2 ^ 44 % 2 ^ 16)
        rootPPN := BitVec.ofNat 44 (raw.toNat % 2 ^ 44) } := by
  rw [tcFields, eq_ofNat_of_toNat (tcMode_toNat raw), eq_ofNat_of_toNat (tcAddressSpaceId_toNat raw),
    eq_ofNat_of_toNat (tcRootPPN_toNat raw)]

/-- The fields of a PTE, read off the little-endian sum of its bytes (R53, R71, R108). -/
theorem pteFields_eq (b : PteBytes) :
    pteFields b =
      { valid := (refLe b).testBit 0
        read := (refLe b).testBit 1
        write := (refLe b).testBit 2
        execute := (refLe b).testBit 3
        ppn := BitVec.ofNat 44 (refLe b / 2 ^ 10 % 2 ^ 44)
        word := BitVec.ofNat 64 (refLe b) } := by
  have hppn : ptePpn (le b) = BitVec.ofNat 44 (refLe b / 2 ^ 10 % 2 ^ 44) :=
    eq_ofNat_of_toNat (by rw [ptePpn_toNat, le_toNat])
  simp only [pteFields, pteValid_eq, pteRead_eq, pteWrite_eq, pteExecute_eq, le_getLsbD, hppn, ← le_eq_ofNat]

/-- A selector outside the table is rejected by the decoder (R78). -/
theorem decode_selector_of_ge {n : Nat} (h : 2 ≤ n) :
    decode ⟨Opcode.schemeLookup.code, [.selector n]⟩ = .error (.unassignedSelector n) :=
  (decode_code _ _).trans (if_neg (Nat.not_lt.mpr h))

/-- Settles O6: each field of the delivered record is the number of its range. -/
theorem tcDecodeExtractsTheFields : Obligations.TcDecodeExtractsTheFields := by
  unfold Obligations.TcDecodeExtractsTheFields
  refine fun raw s => ⟨rfl, fun hidle => ?_⟩
  rw [exec_tcDecode_of_idle hidle, tcFields_eq]
  rfl

/-- Settles O7: the assembled word is the little-endian sum, and its fields are read off that sum. -/
theorem pteDecodeExtractsTheFields : Obligations.PteDecodeExtractsTheFields := by
  unfold Obligations.PteDecodeExtractsTheFields
  refine fun b0 b1 b2 b3 b4 b5 b6 b7 s => ⟨rfl, fun hidle => ?_⟩
  rw [exec_pteDecode_of_idle hidle, pteFields_eq]
  rfl

/-- Settles O8: the two selectors name the two schemes, and no other selector names one. -/
theorem schemeLookupGivesTheRow : Obligations.SchemeLookupGivesTheRow := by
  unfold Obligations.SchemeLookupGivesTheRow
  exact ⟨fun _ hidle => ⟨exec_schemeLookup_of_idle hidle .sv39, exec_schemeLookup_of_idle hidle .sv48⟩,
    fun _ hn => ⟨decode_selector_of_ge hn, exec_schemeLookup_of_ge hn⟩⟩

/-! ## The bit ranges of a walk -/

/-- In LeafFound a coherent block has every register written that the leaf step reads, and a level at which every range
fits (R110). -/
theorem Block.leaf_ne_error {b : Block} {i : Nat} (hc : b.ctrl = .leafFound i) (h : b.coherent = true) (f : Fault) :
    b.leaf i ≠ .error f := by
  obtain ⟨hw, pte, hpte, -⟩ := (Block.coherent_of_leafFound hc).mp h
  obtain ⟨scheme, _, va, _, hs, -, hva, -, hi, -⟩ := Block.walking_iff.mp hw
  rw [Block.leaf_of_written hs hi hpte hva]
  exact nofun

/-- Settles O48: no turn of the environment faults, and of the block's steps only the leaf's could. -/
theorem coherentStatesNeverFault : Obligations.CoherentStatesNeverFault := by
  unfold Obligations.CoherentStatesNeverFault
  intro s hs f hfault
  rcases step_cases s with ⟨-, hstep⟩ | ⟨_, _, -, -, hstep⟩
  · rw [hstep] at hfault
    obtain ⟨i, hc, hleaf⟩ := blockStep_fault hfault
    exact Block.leaf_ne_error hc (State.coherent_iff.mp hs).1 f (leafStep_fault.mp hleaf)
  · rw [hstep] at hfault
    cases hfault

end Sys2Proof.Machine
end

section
/-! SUPPORT. The request channel, the call start, and one step at a level, at a leaf and at a call's end (O15, O16, O19,
O20, O24, O25, O26, O27, O33, O34, O37). -/

namespace Sys2Proof.Machine

/-! ## Requests and responses -/

/-- Every well-formed operation is offered to the block through `accept` (R76, R131). -/
theorem exec_eq_accept {i : Instr} (h : i.wf = true) (s : State) : ∃ effect, exec i s = s.accept effect := by
  cases i with
  | schemeLookup n =>
    obtain ⟨scheme, hs⟩ := schemeOfSelector_lt (of_decide_eq_true h)
    exact ⟨s.deliver (.schemeRow (schemeRow scheme)), by simp only [exec, execSchemeLookup, hs]⟩
  | bfGet word bitIndex size => exact ⟨_, rfl⟩
  | bfSet word bitIndex size value => exact ⟨_, rfl⟩
  | bfValue word => exact ⟨_, rfl⟩
  | tcDecode raw => exact ⟨_, rfl⟩
  | pteDecode b0 b1 b2 b3 b4 b5 b6 b7 => exact ⟨_, rfl⟩
  | translateSv39 va => exact ⟨_, rfl⟩
  | translateSv48 va => exact ⟨_, rfl⟩

/-- Out of Idle the block's own step takes no request (R131). -/
theorem blockStep_requests {s t : State} (hc : s.cur.block.ctrl ≠ .idle) (h : blockStep s = .next t) :
    t.cur.requests = s.cur.requests := by
  rcases blockStep_next h with ⟨hidle, -⟩ | ⟨hidle, -⟩ | ⟨i, -, hw⟩ | ⟨i, -, hl⟩ | ⟨-, rfl⟩
  · exact absurd hidle hc
  · exact absurd hidle hc
  · obtain ⟨-, rfl⟩ | ⟨-, rfl⟩ := walkStep_next.mp hw <;> rfl
  · obtain ⟨b, -, rfl⟩ := leafStep_next.mp hl
    rfl
  · rfl

/-- Settles O15: the intake of an idle block is its oldest request. -/
theorem stepRunsTheDecodedInstruction : Obligations.StepRunsTheDecodedInstruction := by
  unfold Obligations.StepRunsTheDecodedInstruction
  intro s d rest i hturn hidle hrequests hdecode
  rw [step_of_blockTurn hturn]
  exact blockStep_of_operation (s := s.turnTaken) hidle hrequests hdecode

/-- Settles O16: out of Idle no operation is accepted, and the intake is not looked at. -/
theorem requestsWaitUntilIdle : Obligations.RequestsWaitUntilIdle := by
  unfold Obligations.RequestsWaitUntilIdle
  refine fun s hc => ⟨fun i hwf => ?_, fun t hturn h => ?_⟩
  · obtain ⟨effect, he⟩ := exec_eq_accept hwf s
    rw [he, State.accept_of_not_idle effect hc]
  · rw [step_of_blockTurn hturn] at h
    exact blockStep_requests (s := s.turnTaken) hc h

/-- Settles O37: every terminal state has the delivery as its step. -/
theorem responseIsDeliveredAndTheBlockIsIdle : Obligations.ResponseIsDeliveredAndTheBlockIsIdle := by
  unfold Obligations.ResponseIsDeliveredAndTheBlockIsIdle
  intro s r hturn hterminal hresponse
  rw [step_of_blockTurn hturn, blockStep_of_terminal (s := s.turnTaken) hterminal,
    State.deliverResponse_of_holds (s := s.turnTaken) hresponse]
  rfl

/-! ## The start of a call -/

/-- The segments of a virtual address, as numbers (R33). -/
theorem vpnSegments_eq (scheme : Scheme) (va : Word) :
    vpnSegments (schemeRow scheme) va =
      (List.range (refLevels scheme)).map fun k => BitVec.ofNat 9 (va.toNat / 2 ^ (12 + 9 * k) % 512) := by
  rw [vpnSegments, schemeRow_levels]
  exact List.map_congr_left fun k _ => eq_ofNat_of_toNat (vpnSegment_toNat scheme va k)

/-- Settles O19: with mode 0 a call start is one sample and the disabled outcome. -/
theorem modeZeroDisablesTranslation : Obligations.ModeZeroDisablesTranslation := by
  unfold Obligations.ModeZeroDisablesTranslation
  intro scheme va s hidle hmode
  rw [exec_translateInstr_of_idle scheme va hidle, Block.startCall_of_modeZero hmode]
  rfl

/-- Settles O20: with any other mode a call start is one sample and the walk's initialisation, whose segments and base
are those numbers. -/
theorem nonzeroModeStartsTheWalk : Obligations.NonzeroModeStartsTheWalk := by
  unfold Obligations.NonzeroModeStartsTheWalk
  intro scheme va s hidle hmode
  have hbase : frameBase (schemeRow scheme) (tcRootPPN s.tcRegister) =
      BitVec.ofNat 64 (s.tcRegister.toNat % 2 ^ 44 * 4096) :=
    eq_ofNat_of_toNat (by rw [frameBase_toNat, tcRootPPN_toNat])
  rw [exec_translateInstr_of_idle scheme va hidle, Block.startCall_of_accepted hmode, Block.initWalk, vpnSegments_eq,
    hbase, schemeRow_levels]
  rfl

/-! ## What a level makes of its PTE, by the PTE's type (R138-R143) -/

section
variable {pte : Word} (b : Block) (cfg : SchemeConfig)

theorem Block.examine_of_refused {i : Nat}
    (h : pteType pte = .invalid ∨ pteType pte = .reserved ∨ (pteType pte = .pointer ∧ i = 0)) :
    b.examine cfg i pte = b.raise .invalidEntry := by
  rcases h with h | h | ⟨h, rfl⟩
  · simp only [Block.examine, h]
  · simp only [Block.examine, h]
  · simp only [Block.examine, h]

theorem Block.examine_of_leaf (h : pteType pte = .leaf) (i : Nat) :
    b.examine cfg i pte = { b with ctrl := .leafFound i } := by
  simp only [Block.examine, h]

theorem Block.examine_of_pointer (h : pteType pte = .pointer) (below : Nat) :
    b.examine cfg (below + 1) pte = b.descend cfg pte below := by
  simp only [Block.examine, h]

/-- Whatever a level makes of its PTE, it leaves the PTE register alone. -/
@[simp] theorem Block.examine_pte (i : Nat) : (b.examine cfg i pte).pte = b.pte := by
  rcases b.examine_cases cfg i pte with ⟨he, -⟩ | ⟨he, -⟩ | ⟨below, -, -, he⟩ <;> rw [he] <;> rfl

end

/-- A pointer leads to the frame of its whole PPN (R143). -/
theorem Block.descend_eq (b : Block) (scheme : Scheme) (pte : Word) (below : Nat) :
    b.descend (schemeRow scheme) pte below =
      { b with a := .holds (BitVec.ofNat 64 (pte.toNat / 2 ^ 10 % 2 ^ 44 * 4096)), ctrl := .walkingLevel below } := by
  rw [Block.descend, eq_ofNat_of_toNat (frameBase_toNat scheme (ptePpn pte)), ptePpn_toNat]

/-- The block with the PTE that its level has read (R137). -/
def Block.withPte (b : Block) (bytes : PteBytes) : Block := { b with pte := .holds (BitVec.ofNat 64 (refLe bytes)) }

/-- A level whose read is answered with bytes goes where their PTE leads (R137). -/
theorem step_of_bytes {s : State} {scheme : Scheme} {i : Nat} {base : Word} {segment : BitVec 9} {bytes : PteBytes}
    (h : s.atLevel scheme i base segment)
    (hx : s.accessor.answer (entryAddress base segment) = .bytes bytes) :
    step s = .next (s.levelTaken (entryAddress base segment)
      ((s.cur.block.withPte bytes).examine (schemeRow scheme) i (le bytes))) := by
  rw [step_of_atLevel h, hx, Block.withPte, ← le_eq_ofNat]
  rfl

/-- Settles O24: the one read of the level's step, and what an error or bytes make of it. -/
theorem levelReadsOnePteOrEndsInAccessError : Obligations.LevelReadsOnePteOrEndsInAccessError := by
  unfold Obligations.LevelReadsOnePteOrEndsInAccessError
  refine fun s scheme i base segment hlevel => ⟨fun e hx => ?_, fun bytes hx => ?_⟩
  · rw [step_of_atLevel hlevel, hx]
    rfl
  · exact ⟨_, step_of_bytes hlevel hx, Block.examine_pte _ _ i⟩

/-- Settles O25: such a PTE is invalid, or valid and reserved. -/
theorem invalidPteEndsTheCall : Obligations.InvalidPteEndsTheCall := by
  unfold Obligations.InvalidPteEndsTheCall
  intro s scheme i base segment bytes hlevel hx hbits
  have htype : pteType (le bytes) = .invalid ∨ pteType (le bytes) = .reserved ∨
      (pteType (le bytes) = .pointer ∧ i = 0) := by
    rw [pteType_eq_invalid, pteType_eq_reserved, le_getLsbD, le_getLsbD, le_getLsbD]
    cases hvalid : (refLe bytes).testBit 0 with
    | false => exact .inl rfl
    | true => exact .inr (.inl ⟨rfl, hbits.resolve_left (by simp [hvalid])⟩)
  rw [step_of_bytes hlevel hx, Block.examine_of_refused _ _ htype]
  rfl

/-- Settles O26: such a PTE is a leaf. -/
theorem leafPteStopsTheWalk : Obligations.LeafPteStopsTheWalk := by
  unfold Obligations.LeafPteStopsTheWalk
  intro s scheme i base segment bytes hlevel hx hvalid hreserved hleaf
  have htype : pteType (le bytes) = .leaf := by
    rw [pteType_eq_leaf, le_getLsbD, le_getLsbD, le_getLsbD, le_getLsbD]
    exact ⟨hvalid, hreserved, hleaf⟩
  rw [step_of_bytes hlevel hx, Block.examine_of_leaf _ _ htype]
  rfl

/-- Settles O27: such a PTE is a pointer, which level 0 refuses and any other level follows. -/
theorem pointerPteDescendsOrExhaustsTheWalk : Obligations.PointerPteDescendsOrExhaustsTheWalk := by
  unfold Obligations.PointerPteDescendsOrExhaustsTheWalk
  intro s scheme i base segment bytes hlevel hx hv hr hw hx'
  have htype : pteType (le bytes) = .pointer := by
    rw [pteType_eq_pointer, le_getLsbD, le_getLsbD, le_getLsbD, le_getLsbD]
    exact ⟨hv, hr, hw, hx'⟩
  rw [step_of_bytes hlevel hx]
  constructor
  · intro hi
    rw [Block.examine_of_refused _ _ (.inr (.inr ⟨htype, hi⟩))]
    rfl
  · rintro below rfl
    rw [Block.examine_of_pointer _ _ htype, Block.descend_eq, le_toNat]
    rfl

/-! ## The leaf (R145-R150) -/

/-- A leaf's step on the block's turn is what the leaf makes of the block (R132). -/
theorem step_of_leafFound {s : State} {i : Nat} {b : Block} (hturn : s.blockTurn) (hc : s.cur.block.ctrl = .leafFound i)
    (hleaf : s.cur.block.leaf i = .ok b) : step s = .next (s.turnTaken.withBlock b) := by
  rw [step_of_blockTurn hturn, blockStep_of_leafFound (s := s.turnTaken) hc]
  exact leafStep_of_ok (s := s.turnTaken) hleaf

section
variable {s : State} {scheme : Scheme} {i : Nat} {pte va : Word}

theorem step_of_aligned_leaf (h : s.atLeaf scheme i pte va) (haligned : pte.toNat / 2 ^ 10 % 2 ^ (9 * i) = 0) :
    step s = .next (s.turnTaken.withBlock (({ s.cur.block with pa := .holds (assembled i va pte) } : Block).succeed
      (assembled i va pte) (pteRights pte))) := by
  obtain ⟨hturn, hc, hs, hi, hp, hv⟩ := h
  refine step_of_leafFound hturn hc ?_
  rw [Block.leaf_of_written hs hi hp hv, if_pos haligned]

theorem step_of_misaligned_leaf (h : s.atLeaf scheme i pte va) (hmisaligned : pte.toNat / 2 ^ 10 % 2 ^ (9 * i) ≠ 0) :
    step s = .next (s.turnTaken.withBlock (s.cur.block.raise .misalignedSuperpage)) := by
  obtain ⟨hturn, hc, hs, hi, hp, hv⟩ := h
  refine step_of_leafFound hturn hc ?_
  rw [Block.leaf_of_written hs hi hp hv, if_neg hmisaligned]

end

/-- Settles O33: the step of a misaligned leaf; at level 0 there are no bits below to check. -/
theorem misalignedSuperpageIsReported : Obligations.MisalignedSuperpageIsReported := by
  unfold Obligations.MisalignedSuperpageIsReported
  refine fun s scheme i pte va hleaf => ⟨fun _ hmisaligned => step_of_misaligned_leaf hleaf hmisaligned, ?_⟩
  rintro rfl
  exact ⟨_, step_of_aligned_leaf hleaf (Nat.mod_one _), rfl⟩

/-- Settles O34: the step of an aligned leaf, with the assembled address in closed form. -/
theorem alignedLeafGivesTheAddress : Obligations.AlignedLeafGivesTheAddress := by
  unfold Obligations.AlignedLeafGivesTheAddress
  intro s scheme i pte va hleaf haligned
  have ⟨_, _, _, hi, _, _⟩ := hleaf
  have h4 : i < 4 := Nat.lt_of_lt_of_le hi (refLevels_le scheme)
  rw [step_of_aligned_leaf hleaf haligned, assembled_of_aligned h4 va haligned, pteRights, pteRead_eq, pteWrite_eq,
    pteExecute_eq]
  rfl

end Sys2Proof.Machine
end

section
/-! SUPPORT. The sequencer's moves, one row of the table at a time (O41). -/

namespace Sys2Proof.Machine

/-- A call start leads from Idle to the top level of the scheme, or ends at once (R133, R134). -/
theorem Block.startCall_mayFollow (b : Block) (scheme : Scheme) (va tc : Word) :
    Ctrl.idle.mayFollow (b.startCall scheme va tc).ctrl := by
  by_cases hmode : tc.toNat / 2 ^ 60 = 0
  · rw [Block.startCall_of_modeZero hmode]
    trivial
  · rw [Block.startCall_of_accepted hmode]
    cases scheme with
    | sv39 => exact .inl rfl
    | sv48 => exact .inr rfl

/-- An answer ends the call with one of a level's two faults, or finds a leaf at this level, or leads one level down
(R137-R143). -/
theorem Block.afterAnswer_mayFollow (b : Block) (cfg : SchemeConfig) (i : Nat) (x : Answer) :
    (Ctrl.walkingLevel i).mayFollow (b.afterAnswer cfg i x).ctrl := by
  cases x with
  | error e => trivial
  | bytes bytes =>
    let b' : Block := { b with pte := .holds (le bytes) }
    show (Ctrl.walkingLevel i).mayFollow (b'.examine cfg i (le bytes)).ctrl
    rcases b'.examine_cases cfg i (le bytes) with ⟨he, -⟩ | ⟨he, -⟩ | ⟨below, rfl, -, he⟩
    · rw [he]
      trivial
    · rw [he]
      exact rfl
    · rw [he]
      exact .inl rfl

/-- The alignment check fails above level 0 only (R145). -/
theorem pos_of_superpageAligned_false {cfg : SchemeConfig} {i : Nat} {pte : Word}
    (h : superpageAligned cfg i pte = .ok false) : 0 < i := by
  refine Nat.pos_of_ne_zero ?_
  rintro rfl
  simp [superpageAligned] at h

/-- A leaf ends the call, with the fault only above level 0 (R145-R150). -/
theorem Block.leaf_mayFollow {b b' : Block} {i : Nat} (h : b.leaf i = .ok b') :
    (Ctrl.leafFound i).mayFollow b'.ctrl := by
  rcases Block.leaf_ok h with ⟨hmisaligned, rfl⟩ | ⟨-, pa, -, rfl⟩
  · exact pos_of_superpageAligned_false hmisaligned
  · trivial

/-- A call that is over leads to Idle (R131). -/
theorem Ctrl.mayFollow_idle_of_terminal {c : Ctrl} (h : c.terminal = true) : c.mayFollow .idle := by
  cases c with
  | idle => trivial
  | walkingLevel i => simp [Ctrl.terminal] at h
  | leafFound i => simp [Ctrl.terminal] at h
  | done => trivial
  | faulted reason => trivial
  | translationDisabled => trivial

/-- Each of the block's steps is a row of the table (R132). -/
theorem blockStep_mayFollow {s t : State} (h : blockStep s = .next t) :
    s.cur.block.ctrl.mayFollow t.cur.block.ctrl := by
  rcases blockStep_next h with ⟨hc, rfl, -⟩ | ⟨hc, d, rest, i, -, -, he⟩ | ⟨i, hc, hw⟩ | ⟨i, hc, hl⟩ | ⟨hc, rfl⟩
  · rw [hc]
    trivial
  · obtain ⟨-, ⟨r, rfl⟩ | ⟨scheme, va, -, rfl⟩⟩ := exec_next he
    · rw [State.deliver_block, hc]
      trivial
    · rw [hc]
      exact Block.startCall_mayFollow _ scheme va _
  · rw [hc]
    obtain ⟨-, rfl⟩ | ⟨-, rfl⟩ := walkStep_next.mp hw
    · rw [hc]
      exact .inr rfl
    · exact Block.afterAnswer_mayFollow _ _ i _
  · rw [hc]
    obtain ⟨b, hleaf, rfl⟩ := leafStep_next.mp hl
    exact Block.leaf_mayFollow hleaf
  · exact Ctrl.mayFollow_idle_of_terminal hc

/-- Settles O41: the block's step, its turn taken. -/
theorem sequencerMovesOnlyByTheTable : Obligations.SequencerMovesOnlyByTheTable := by
  unfold Obligations.SequencerMovesOnlyByTheTable
  intro s t hturn h
  rw [step_of_blockTurn hturn] at h
  exact blockStep_mayFollow (s := s.turnTaken) h

end Sys2Proof.Machine
end

section
/-! SUPPORT. The run of a call that is left alone: its length, its response and its reads (O49, O50). -/

namespace Sys2Proof.Machine

/-! ## An accessor left to itself -/

/-- Its answer to the next read is the first of its answers. -/
theorem Accessor.undisturbed_zero (acc : Accessor) (addr : Word) : acc.undisturbed 0 addr = acc.answer addr := rfl

/-- Once it has answered, the answers still to come are the rest of them (R58). -/
theorem Accessor.undisturbed_answered (acc : Accessor) (j : Nat) (addr : Word) :
    acc.answered.undisturbed j addr = acc.undisturbed (j + 1) addr := by
  simp only [Accessor.undisturbed, Accessor.answered, ite_self, Nat.add_one_ne_zero, if_false, Nat.add_assoc,
    Nat.add_comm 1 j]

/-! ## The end of a call -/

/-- The channels other than the reads', and the other instances, are as they were. -/
def State.KeepsChannels (s t : State) : Prop :=
  t.cur.samples = s.cur.samples ∧ t.cur.requests = s.cur.requests ∧ t.cur.delivered = s.cur.delivered ∧
    t.parked = s.parked

theorem State.KeepsChannels.trans {s t u : State} (h : s.KeepsChannels t) (h' : t.KeepsChannels u) :
    s.KeepsChannels u := by
  obtain ⟨hsamples, hrequests, hdelivered, hparked⟩ := h
  obtain ⟨hsamples', hrequests', hdelivered', hparked'⟩ := h'
  exact ⟨hsamples'.trans hsamples, hrequests'.trans hrequests, hdelivered'.trans hdelivered, hparked'.trans hparked⟩

/-- Within so many steps the call is over, with this response in the register and these reads issued. -/
def State.CallEndsWithin (s : State) (bound : Nat) (outcome : Response × List ReadRequest) : Prop :=
  ∃ (n : Nat) (t : State), n ≤ bound ∧ core.run n s = .next t ∧ t.cur.block.ctrl.terminal = true ∧
    t.cur.block.response = .holds outcome.1 ∧ t.cur.reads = s.cur.reads ++ outcome.2 ∧ s.KeepsChannels t

theorem State.CallEndsWithin.of_terminal {s : State} {r : Response} (hterminal : s.cur.block.ctrl.terminal = true)
    (hresponse : s.cur.block.response = .holds r) (bound : Nat) : s.CallEndsWithin bound (r, []) :=
  ⟨0, s, Nat.zero_le bound, rfl, hterminal, hresponse, (List.append_nil _).symm, rfl, rfl, rfl, rfl⟩

/-- A step first: what it reads comes first. -/
theorem State.CallEndsWithin.of_step {s t : State} {bound : Nat} {new reads : List ReadRequest} {r : Response}
    (hstep : step s = .next t) (hreads : t.cur.reads = s.cur.reads ++ new) (hkeeps : s.KeepsChannels t)
    (h : t.CallEndsWithin bound (r, reads)) : s.CallEndsWithin (bound + 1) (r, new ++ reads) := by
  obtain ⟨n, u, hn, hrun, hterminal, hresponse, hreads', hkeeps'⟩ := h
  refine ⟨n + 1, u, Nat.succ_le_succ hn, (core_run_succ hstep n).trans hrun, hterminal, hresponse, ?_,
    hkeeps.trans hkeeps'⟩
  rw [hreads', hreads, List.append_assoc]

/-- A level's step first: its read comes first (R135). -/
theorem State.CallEndsWithin.of_levelTaken {s : State} {addr : Word} {b : Block} {bound : Nat}
    {reads : List ReadRequest} {r : Response} (hstep : step s = .next (s.levelTaken addr b))
    (h : (s.levelTaken addr b).CallEndsWithin bound (r, reads)) :
    s.CallEndsWithin (bound + 1) (r, ⟨addr, 8⟩ :: reads) :=
  .of_step (new := [_]) hstep rfl ⟨rfl, rfl, rfl, rfl⟩ h

/-- From a leaf one step ends the call as R153 ends it (R145-R150). -/
theorem State.CallEndsWithin.of_leafFound {s : State} {i : Nat} {scheme : Scheme} {pte va base : Word}
    (hturn : s.blockTurn) (hi : i < refLevels scheme) (hc : s.cur.block.ctrl = .leafFound i)
    (hp : s.cur.block.pte = .holds pte) (hcall : s.cur.block.OnCall scheme va base) (bound : Nat) :
    s.CallEndsWithin (bound + 1) (refLeaf va.toNat pte.toNat i, []) := by
  obtain ⟨b, hleaf, hterminal, hresponse⟩ := Block.leaf_follows_refLeaf hcall.scheme_eq hi hp hcall.va_eq
  exact .of_step (new := []) (step_of_leafFound hturn hc hleaf) (List.append_nil _).symm ⟨rfl, rfl, rfl, rfl⟩
    (.of_terminal hterminal hresponse bound)

/-- From level `i` a call left alone ends as the loop of R153 does on the answers still to come: a step for each level
and one for the leaf (R144, R153, R202). -/
theorem State.CallEndsWithin.of_walkingLevel {scheme : Scheme} {va : Word} {mem : MemRead} {i k : Nat} {s : State}
    {base : Word} (hi : i < refLevels scheme) (hsch : s.schedule = []) (hc : s.cur.block.ctrl = .walkingLevel i)
    (hcall : s.cur.block.OnCall scheme va base) (hstalled : s.accessor.stalled = false)
    (hmem : ∀ j addr, mem (k + j) addr = s.accessor.undisturbed j addr) :
    s.CallEndsWithin (i + 2) (refWalk va.toNat mem i base.toNat k) := by
  induction i using Nat.strongRecOn generalizing s k base with
  | ind i ih =>
    have hstep := step_of_atLevel (State.atLevel_of_onCall (.inl hsch) hc hcall hi hstalled)
    have hsch' : s.turnTaken.schedule = [] := congrArg List.tail hsch
    rcases hcall.afterAnswer_follows_refWalk (k := k) (entryAddress_vpnSegment scheme base va i)
        ((hmem 0 _).trans (s.accessor.undisturbed_zero _)) with
      ⟨r, hterminal, hresponse, href⟩ | ⟨pte, hc', hp, hcall', href⟩ | ⟨below, base', rfl, hc', hcall', href⟩
    · rw [href]
      exact .of_levelTaken hstep (.of_terminal hterminal hresponse _)
    · rw [href]
      exact .of_levelTaken hstep (.of_leafFound (s := s.levelTaken _ _) (.inl hsch') hi hc' hp hcall' i)
    · have hmem' (j : Nat) (addr : Word) : mem (k + 1 + j) addr = s.accessor.answered.undisturbed j addr := by
        rw [Accessor.undisturbed_answered, ← hmem, Nat.add_assoc, Nat.add_comm 1 j]
      rw [href]
      exact .of_levelTaken hstep
        (ih below (Nat.lt_succ_self below) (Nat.lt_of_succ_lt hi) hsch' hc' hcall' hstalled hmem')

/-! ## From a coherent state at a level, and from an idle one -/

/-- A coherent block at a level is on a call under its scheme (R33, R34, R41). -/
theorem Block.onCall_of_walking {b : Block} {i : Nat} (h : b.walking i = true) :
    ∃ scheme va base, i < refLevels scheme ∧ b.OnCall scheme va base := by
  obtain ⟨scheme, -, va, base, hscheme, -, hva, ha, hi, hvpn, -⟩ := Block.walking_iff.mp h
  exact ⟨scheme, va, base, hi, hscheme, hva, hvpn, ha⟩

/-- The loop of R153 reads once at each level that it comes to (R144). -/
theorem refWalk_reads_length_le (va : Nat) (mem : MemRead) (i a k : Nat) :
    (refWalk va mem i a k).2.length ≤ i + 1 := by
  induction i using Nat.strongRecOn generalizing a k with
  | ind i ih =>
    have hone : 1 ≤ i + 1 := Nat.le_add_left 1 i
    cases hx : mem k (BitVec.ofNat 64 (a + refVpn va i * 8)) with
    | error e => rwa [refWalk_of_error rfl hx]
    | bytes bytes =>
      cases ht : pteType (le bytes) with
      | invalid => rwa [refWalk_of_refused rfl hx (.inl ht)]
      | reserved => rwa [refWalk_of_refused rfl hx (.inr (.inl ht))]
      | leaf => rwa [refWalk_of_leaf rfl hx ht]
      | pointer =>
        cases i with
        | zero => rwa [refWalk_of_refused rfl hx (.inr (.inr ⟨ht, rfl⟩))]
        | succ below =>
          rw [refWalk_of_pointer rfl hx ht]
          exact Nat.succ_le_succ (ih below (Nat.lt_succ_self below) _ _)

/-- Settles O49: a coherent block at a level is on a call, and a call ends as the loop of R153 does. -/
theorem callsEndInBoundedSteps : Obligations.CallsEndInBoundedSteps := by
  unfold Obligations.CallsEndInBoundedSteps
  intro s i hs hsch hstalled hc
  obtain ⟨hb, -, -⟩ := State.coherent_iff.mp hs
  obtain ⟨scheme, va, base, hi, hcall⟩ := Block.onCall_of_walking ((Block.coherent_of_walkingLevel hc).symm.trans hb)
  obtain ⟨n, t, hn, hrun, hterminal, -, hreads, -⟩ :=
    State.CallEndsWithin.of_walkingLevel (mem := s.accessor.undisturbed) (k := 0) hi hsch hc hcall hstalled
      (fun j addr => by rw [Nat.zero_add])
  refine ⟨n, t, hn, hrun, hterminal, ?_⟩
  rw [hreads, List.length_append]
  exact Nat.add_le_add_left (refWalk_reads_length_le _ _ _ _ _) _

/-- Settles O50: the call start and then the levels follow R153 on the answers of the accessor. -/
theorem callGivesTheResponseOfTheAlgorithm : Obligations.CallGivesTheResponseOfTheAlgorithm := by
  unfold Obligations.CallGivesTheResponseOfTheAlgorithm
  intro scheme va s rest hidle hsch hstalled hrequests
  let accepted : State := { s.turnTaken with cur := { s.cur with requests := rest } }
  let started := (accepted.sampled s.tcRegister).withBlock (s.cur.block.startCall scheme va s.tcRegister)
  have hstep : step s = .next started :=
    (stepRunsTheDecodedInstruction s _ rest _ (.inl hsch) hidle hrequests (decode_encode_translateInstr scheme va)).trans
      (exec_translateInstr_of_idle scheme va (s := accepted) hidle)
  have hsch' : started.schedule = [] := congrArg List.tail hsch
  have hends : started.CallEndsWithin (refLevels scheme + 1)
      (refTranslate scheme va s.tcRegister s.accessor.undisturbed) := by
    rcases Block.startCall_follows_refTranslate s.cur.block scheme va s.tcRegister s.accessor.undisturbed with
      ⟨hterminal, r, hresponse, href⟩ | ⟨base, hc, hcall, href⟩
    · rw [href]
      exact .of_terminal hterminal hresponse _
    · have hlevels := refLevels_pos scheme
      have hbound : refLevels scheme + 1 = refLevels scheme - 1 + 2 := by omega
      rw [href, hbound]
      exact .of_walkingLevel (by omega) hsch' hc hcall hstalled (fun j addr => by rw [Nat.zero_add]; rfl)
  obtain ⟨n, t, hn, hrun, hterminal, hresponse, hreads, hsamples, hwaiting, hdelivered, hparked⟩ := hends
  exact ⟨n + 1, t, Nat.succ_le_succ hn, (core_run_succ hstep n).trans hrun, hterminal, hresponse, hreads, hsamples,
    hwaiting, hdelivered, hparked⟩

end Sys2Proof.Machine
end

section
/-! SUPPORT. The outcomes and their causes: which operations report RangeViolation, which steps raise which fault, and
what an accessor that does not answer leaves (O5, O28, O29, O30, O31, O32). -/

namespace Sys2Proof.Machine

/-! ## RangeViolation (R175) -/

theorem rangeResult_bfGet_eq_rangeViolation {word : Word} {bitIndex size : Nat} :
    rangeResult (bfGet word bitIndex size) = .rangeViolation ↔ 64 < bitIndex + size := by
  by_cases h : 64 < bitIndex + size
  · simp only [bfGet_of_gt word h, rangeResult, h]
  · simp only [bfGet_of_le word (Nat.le_of_not_lt h), rangeResult, h, reduceCtorEq]

theorem rangeResult_bfSet_eq_rangeViolation {word : Word} {bitIndex size value : Nat} :
    rangeResult (bfSet word bitIndex size value) = .rangeViolation ↔ 64 < bitIndex + size := by
  by_cases h : 64 < bitIndex + size
  · simp only [bfSet_of_gt word value h, rangeResult, h]
  · simp only [bfSet_of_le word value (Nat.le_of_not_lt h), rangeResult, h, reduceCtorEq]

/-- An accepted operation that delivers a result delivers no other (R131). -/
theorem delivered_eq_iff_of_accept {s t : State} {r r' : Result} (h : s.accept (s.deliver r) = .next t) :
    t.cur.delivered = s.cur.delivered ++ [r'] ↔ r = r' := by
  obtain ⟨-, rfl⟩ := State.accept_next.mp h
  rw [State.deliver_delivered, List.append_cancel_left_eq, List.singleton_inj]

/-- A call start delivers nothing (R131, R133). -/
theorem delivered_ne_of_startTranslation {s t : State} {scheme : Scheme} {va : Word} (r : Result)
    (h : startTranslation scheme va s = .next t) : t.cur.delivered ≠ s.cur.delivered ++ [r] := by
  obtain ⟨-, rfl⟩ := State.accept_next.mp h
  exact fun heq => List.cons_ne_nil r [] (List.self_eq_append_right.mp heq)

/-- Settles O5: each operation delivers its own kind of result, and of BF_GET and BF_SET the range decides which. -/
theorem rangeViolationOnlyFromGetAndSet : Obligations.RangeViolationOnlyFromGetAndSet := by
  unfold Obligations.RangeViolationOnlyFromGetAndSet
  intro i s t h
  cases i with
  | bfGet word bitIndex size => exact (delivered_eq_iff_of_accept h).trans rangeResult_bfGet_eq_rangeViolation
  | bfSet word bitIndex size value => exact (delivered_eq_iff_of_accept h).trans rangeResult_bfSet_eq_rangeViolation
  | bfValue word => exact (delivered_eq_iff_of_accept h).trans (iff_of_false nofun id)
  | tcDecode raw => exact (delivered_eq_iff_of_accept h).trans (iff_of_false nofun id)
  | pteDecode b0 b1 b2 b3 b4 b5 b6 b7 => exact (delivered_eq_iff_of_accept h).trans (iff_of_false nofun id)
  | schemeLookup n =>
    by_cases hn : n < 2
    · obtain ⟨scheme, hscheme⟩ := schemeOfSelector_lt hn
      simp only [exec, execSchemeLookup, hscheme] at h
      exact (delivered_eq_iff_of_accept h).trans (iff_of_false nofun id)
    · rw [exec_schemeLookup_of_ge (Nat.le_of_not_lt hn)] at h
      cases h
  | translateSv39 va => exact iff_of_false (delivered_ne_of_startTranslation _ h) id
  | translateSv48 va => exact iff_of_false (delivered_ne_of_startTranslation _ h) id

/-! ## From which state of the sequencer an outcome is reached, by the table of R132 -/

/-- A misaligned superpage is found at a leaf above level 0, and every other fault at a level (R171-R173). -/
theorem Ctrl.mayFollow_faulted {c : Ctrl} {f : WalkFault} (h : c.mayFollow (.faulted f)) :
    (f = .misalignedSuperpage ∧ ∃ i, c = .leafFound i ∧ 0 < i) ∨
      (f ≠ .misalignedSuperpage ∧ ∃ i, c = .walkingLevel i) := by
  cases c with
  | walkingLevel i =>
    cases f with
    | misalignedSuperpage => exact h.elim
    | invalidEntry => exact .inr ⟨nofun, i, rfl⟩
    | accessError e => exact .inr ⟨nofun, i, rfl⟩
  | leafFound i =>
    cases f with
    | misalignedSuperpage => exact .inl ⟨rfl, i, rfl, h⟩
    | _ => exact h.elim
  | _ => exact h.elim

theorem Ctrl.mayFollow_translationDisabled {c : Ctrl} (h : c.mayFollow .translationDisabled) : c = .idle := by
  cases c with
  | idle => rfl
  | _ => exact h.elim

/-! ## The faults of a level (R171, R173) -/

/-- The step of a level whose read is not answered: none, but for the turn (R180, D15). -/
theorem step_of_stalled {s : State} {i : Nat} (hturn : s.blockTurn) (hc : s.cur.block.ctrl = .walkingLevel i)
    (hstalled : s.accessor.stalled = true) : step s = .next s.turnTaken := by
  rw [step_of_blockTurn hturn, blockStep_of_walkingLevel (s := s.turnTaken) hc]
  exact walkStep_stalled hstalled

theorem State.turnTaken_of_nil {s : State} (h : s.schedule = []) : s.turnTaken = s := by
  rw [State.turnTaken, h, List.tail_nil, ← h]

/-- A coherent block that a step takes out of `WalkingLevel(i)` had its read answered, at an entry of its table. -/
theorem State.atLevel_of_left {s t : State} {i : Nat} (hs : s.coherent = true) (hturn : s.blockTurn)
    (hstep : step s = .next t) (hc : s.cur.block.ctrl = .walkingLevel i) (hleft : t.cur.block.ctrl ≠ .walkingLevel i) :
    ∃ scheme base segment, s.atLevel scheme i base segment := by
  obtain ⟨hb, -, -⟩ := State.coherent_iff.mp hs
  obtain ⟨scheme, va, base, hi, hcall⟩ := Block.onCall_of_walking ((Block.coherent_of_walkingLevel hc).symm.trans hb)
  cases hstalled : s.accessor.stalled with
  | true =>
    rw [step_of_stalled hturn hc hstalled, Host.Outcome.next.injEq] at hstep
    subst hstep
    exact absurd hc hleft
  | false => exact ⟨scheme, base, _, State.atLevel_of_onCall hturn hc hcall hi hstalled⟩

/-- Any fault but a misaligned superpage is raised by what a level makes of the answer to its read, and nowhere else. -/
theorem raised_iff_of_level {s t : State} {f : WalkFault} (hs : s.coherent = true) (hturn : s.blockTurn)
    (hstep : step s = .next t) (hf : f ≠ .misalignedSuperpage) :
    t.cur.block.ctrl = .faulted f ↔
      ∃ scheme i base segment, s.atLevel scheme i base segment ∧
        (s.cur.block.afterAnswer (schemeRow scheme) i (s.accessor.answer (entryAddress base segment))).ctrl
          = .faulted f := by
  have hafter {scheme i base segment} (h : s.atLevel scheme i base segment) : t.cur.block =
      s.cur.block.afterAnswer (schemeRow scheme) i (s.accessor.answer (entryAddress base segment)) := by
    rw [step_of_atLevel h, Host.Outcome.next.injEq] at hstep
    rw [← hstep]
    rfl
  constructor
  · intro hraised
    have hfollows := hraised ▸ sequencerMovesOnlyByTheTable s t hturn hstep
    obtain ⟨-, i, hc⟩ := (Ctrl.mayFollow_faulted hfollows).resolve_left fun h => hf h.1
    obtain ⟨scheme, base, segment, h⟩ := State.atLevel_of_left hs hturn hstep hc (by rw [hraised]; nofun)
    exact ⟨scheme, i, base, segment, h, hafter h ▸ hraised⟩
  · rintro ⟨scheme, i, base, segment, h, hraised⟩
    rw [hafter h, hraised]

section
variable (b : Block) (cfg : SchemeConfig) (i : Nat)

/-- A level refuses a PTE that is invalid, reserved, or a pointer with no level below (R171). -/
theorem Block.examine_invalidEntry_iff {pte : Word} :
    (b.examine cfg i pte).ctrl = .faulted .invalidEntry ↔
      pteType pte = .invalid ∨ pteType pte = .reserved ∨ (pteType pte = .pointer ∧ i = 0) := by
  refine ⟨fun h => ?_, fun h => by rw [Block.examine_of_refused b cfg h, Block.raise_ctrl]⟩
  rcases b.examine_cases cfg i pte with ⟨-, hrefused⟩ | ⟨he, -⟩ | ⟨below, -, -, he⟩
  · exact hrefused
  · rw [he] at h
    cases h
  · rw [he] at h
    cases h

theorem Block.examine_ne_accessError {pte : Word} {e : AccessErr} :
    (b.examine cfg i pte).ctrl ≠ .faulted (.accessError e) := by
  rcases b.examine_cases cfg i pte with ⟨he, -⟩ | ⟨he, -⟩ | ⟨below, -, -, he⟩ <;> rw [he] <;> nofun

theorem Block.afterAnswer_invalidEntry_iff {x : Answer} :
    (b.afterAnswer cfg i x).ctrl = .faulted .invalidEntry ↔
      ∃ bytes, x = .bytes bytes ∧ (pteType (le bytes) = .invalid ∨ pteType (le bytes) = .reserved ∨
        (pteType (le bytes) = .pointer ∧ i = 0)) := by
  cases x with
  | error e => exact iff_of_false nofun nofun
  | bytes bytes =>
    refine (Block.examine_invalidEntry_iff { b with pte := .holds (le bytes) } cfg i).trans ?_
    simp only [Answer.bytes.injEq, exists_eq_left']

theorem Block.afterAnswer_accessError_iff {x : Answer} {e : AccessErr} :
    (b.afterAnswer cfg i x).ctrl = .faulted (.accessError e) ↔ x = .error e := by
  cases x with
  | error e' => simp only [Block.afterAnswer, Block.raise_ctrl, Ctrl.faulted.injEq, WalkFault.accessError.injEq,
      Answer.error.injEq]
  | bytes bytes => exact iff_of_false (Block.examine_ne_accessError { b with pte := .holds (le bytes) } cfg i) nofun

end

/-- The three causes of InvalidEntry, as bits of the PTE's bytes: a PTE with V = 0 is refused whatever R and W, so the
second needs no V (R138, R171). -/
theorem refused_iff_bits {bytes : PteBytes} {i : Nat} :
    (pteType (le bytes) = .invalid ∨ pteType (le bytes) = .reserved ∨ (pteType (le bytes) = .pointer ∧ i = 0)) ↔
      (refLe bytes).testBit 0 = false
        ∨ ((refLe bytes).testBit 1 = false ∧ (refLe bytes).testBit 2 = true)
        ∨ (i = 0 ∧ (refLe bytes).testBit 0 = true ∧ (refLe bytes).testBit 1 = false ∧ (refLe bytes).testBit 2 = false
            ∧ (refLe bytes).testBit 3 = false) := by
  simp only [pteType_eq_invalid, pteType_eq_reserved, pteType_eq_pointer, le_getLsbD]
  cases (refLe bytes).testBit 0 with
  | false => simp only [true_or]
  | true => simp only [true_and, and_comm]

/-- Settles O28: a level alone raises it, on a PTE that it refuses. -/
theorem invalidEntryHasThreeCauses : Obligations.InvalidEntryHasThreeCauses := by
  unfold Obligations.InvalidEntryHasThreeCauses
  intro s t hs hturn hstep
  have hraised := raised_iff_of_level (f := .invalidEntry) hs hturn hstep nofun
  simpa only [Block.afterAnswer_invalidEntry_iff, refused_iff_bits, exists_and_left] using hraised

/-- Settles O30: a level alone raises it, on that answer to its read; the response is the invariant's of `Faulted`. -/
theorem accessErrorHasOneCause : Obligations.AccessErrorHasOneCause := by
  unfold Obligations.AccessErrorHasOneCause
  intro s t e hs hturn hstep
  refine ⟨?_, fun hended => ?_⟩
  · have hraised := raised_iff_of_level (f := .accessError e) hs hturn hstep nofun
    simpa only [Block.afterAnswer_accessError_iff] using hraised
  · obtain ⟨ht, -, -⟩ := State.coherent_iff.mp (coherenceIsKept s t hs hstep)
    exact (Block.coherent_of_faulted hended).mp ht

/-- Settles O32: with no turn listed there is none to take. -/
theorem unansweredReadIsStuck : Obligations.UnansweredReadIsStuck := by
  unfold Obligations.UnansweredReadIsStuck
  intro s i hsch hc hstalled
  rw [step_of_stalled (.inl hsch) hc hstalled, State.turnTaken_of_nil hsch]

/-! ## The fault of a leaf (R172) -/

/-- A coherent block in `LeafFound(i)` has the registers that its step needs (R41). -/
theorem State.atLeaf_of_coherent {s : State} {i : Nat} (hs : s.coherent = true) (hturn : s.blockTurn)
    (hc : s.cur.block.ctrl = .leafFound i) : ∃ scheme pte va, s.atLeaf scheme i pte va := by
  obtain ⟨hb, -, -⟩ := State.coherent_iff.mp hs
  obtain ⟨hwalking, pte, hpte, -⟩ := (Block.coherent_of_leafFound hc).mp hb
  obtain ⟨scheme, va, base, hi, hcall⟩ := Block.onCall_of_walking hwalking
  exact ⟨scheme, pte, va, hturn, hc, hcall.scheme_eq, hi, hpte, hcall.va_eq⟩

/-- A leaf's step raises MisalignedSuperpage exactly if a PPN bit below the level is nonzero (R145, R172). -/
theorem raised_iff_misaligned {s t : State} {scheme : Scheme} {i : Nat} {pte va : Word} (h : s.atLeaf scheme i pte va)
    (hstep : step s = .next t) :
    t.cur.block.ctrl = .faulted .misalignedSuperpage ↔ pte.toNat / 2 ^ 10 % 2 ^ (9 * i) ≠ 0 := by
  by_cases haligned : pte.toNat / 2 ^ 10 % 2 ^ (9 * i) = 0
  · rw [step_of_aligned_leaf h haligned, Host.Outcome.next.injEq] at hstep
    subst hstep
    exact iff_of_false nofun (not_not_intro haligned)
  · rw [step_of_misaligned_leaf h haligned, Host.Outcome.next.injEq] at hstep
    subst hstep
    exact iff_of_true rfl haligned

/-- Settles O29: a leaf above level 0 alone raises it, and then its PPN is what its step looks at. -/
theorem misalignedSuperpageHasOneCause : Obligations.MisalignedSuperpageHasOneCause := by
  unfold Obligations.MisalignedSuperpageHasOneCause
  intro s t hs hturn hstep
  constructor
  · intro hraised
    have hfollows := hraised ▸ sequencerMovesOnlyByTheTable s t hturn hstep
    obtain ⟨-, i, hc, hi⟩ := (Ctrl.mayFollow_faulted hfollows).resolve_right fun h => h.1 rfl
    obtain ⟨scheme, pte, va, h⟩ := State.atLeaf_of_coherent hs hturn hc
    exact ⟨scheme, i, pte, va, h, hi, (raised_iff_misaligned h hstep).mp hraised⟩
  · rintro ⟨scheme, i, pte, va, h, -, hmisaligned⟩
    exact (raised_iff_misaligned h hstep).mpr hmisaligned

/-! ## The disabled outcome (R174) -/

/-- A call start ends in TranslationDisabled exactly if the mode is 0 (R133). -/
theorem Block.startCall_translationDisabled_iff {b : Block} {scheme : Scheme} {va tc : Word} :
    (b.startCall scheme va tc).ctrl = .translationDisabled ↔ tc.toNat / 2 ^ 60 = 0 := by
  by_cases hmode : tc.toNat / 2 ^ 60 = 0
  · rw [Block.startCall_of_modeZero hmode]
    exact iff_of_true rfl hmode
  · rw [Block.startCall_of_accepted hmode]
    exact iff_of_false nofun hmode

/-- An idle block whose oldest request is a TRANSLATE operation starts that call (R131, R133). -/
theorem block_of_callStart {s t : State} {scheme : Scheme} {va : Word} {rest : List Descriptor} (hturn : s.blockTurn)
    (hc : s.cur.block.ctrl = .idle) (hr : s.cur.requests = encode (translateInstr scheme va) :: rest)
    (hstep : step s = .next t) : t.cur.block = s.cur.block.startCall scheme va s.tcRegister := by
  rw [stepRunsTheDecodedInstruction s _ rest _ hturn hc hr (decode_encode_translateInstr scheme va),
    exec_translateInstr_of_idle (s := { s.turnTaken with cur := { s.cur with requests := rest } }) scheme va hc,
    Host.Outcome.next.injEq] at hstep
  rw [← hstep]
  rfl

/-- A step of the block that leaves Idle took a TRANSLATE operation (R132). -/
theorem translate_requested_of_left_idle {s t : State} (hturn : s.blockTurn) (hstep : step s = .next t)
    (hc : s.cur.block.ctrl = .idle) (hleft : t.cur.block.ctrl ≠ .idle) :
    ∃ scheme va rest, s.cur.requests = encode (translateInstr scheme va) :: rest := by
  rw [step_of_blockTurn hturn] at hstep
  cases hr : s.cur.requests with
  | nil =>
    rw [blockStep_of_waiting (s := s.turnTaken) hc hr, Host.Outcome.next.injEq] at hstep
    subst hstep
    exact absurd hc hleft
  | cons d rest =>
    cases hd : decode d with
    | error e =>
      rw [blockStep_of_bad (s := s.turnTaken) hc hr hd] at hstep
      cases hstep
    | ok i =>
      rw [blockStep_of_operation (s := s.turnTaken) hc hr hd] at hstep
      obtain ⟨-, ⟨r, rfl⟩ | ⟨scheme, va, rfl, -⟩⟩ := exec_next hstep
      · exact absurd hc hleft
      · obtain ⟨rfl, -⟩ := decode_eq_ok_iff.mp hd
        exact ⟨scheme, va, rest, rfl⟩

/-- Settles O31: from Idle alone, by a call start, and of those with mode 0 alone. -/
theorem translationDisabledHasOneCause : Obligations.TranslationDisabledHasOneCause := by
  unfold Obligations.TranslationDisabledHasOneCause
  intro s t hturn hstep
  have hcause (hended : t.cur.block.ctrl = .translationDisabled) :
      s.cur.block.ctrl = .idle ∧ s.tcRegister.toNat / 2 ^ 60 = 0 ∧
        ∃ scheme va rest, s.cur.requests = encode (translateInstr scheme va) :: rest := by
    have hc := Ctrl.mayFollow_translationDisabled (hended ▸ sequencerMovesOnlyByTheTable s t hturn hstep)
    obtain ⟨scheme, va, rest, hr⟩ := translate_requested_of_left_idle hturn hstep hc (by rw [hended]; nofun)
    rw [block_of_callStart hturn hc hr hstep] at hended
    exact ⟨hc, Block.startCall_translationDisabled_iff.mp hended, scheme, va, rest, hr⟩
  refine ⟨⟨hcause, ?_⟩, fun hended => ?_⟩
  · rintro ⟨hc, hmode, scheme, va, rest, hr⟩
    rw [block_of_callStart hturn hc hr hstep]
    exact Block.startCall_translationDisabled_iff.mpr hmode
  · obtain ⟨hc, hmode, scheme, va, rest, hr⟩ := hcause hended
    rw [block_of_callStart hturn hc hr hstep, Block.startCall_of_modeZero hmode, Block.disable_response]

end Sys2Proof.Machine
end

section
/-! SUPPORT. A step of the block does not look at the other instances (O45). -/

namespace Sys2Proof.Machine

/-- The state with other parked instances (R184; log 11). -/
def State.withParked (s : State) (others : List Agent) : State := { s with parked := others }

/-- An operation on a state with other instances: the same, and they stay (R42). -/
theorem exec_withParked {i : Instr} {s t : State} (h : exec i s = .next t) (others : List Agent) :
    exec i (s.withParked others) = .next (t.withParked others) := by
  obtain ⟨hc, -⟩ := exec_next h
  rcases exec_shape i with ⟨scheme, va, rfl⟩ | ⟨r, hi⟩ | ⟨e, hi⟩
  · rw [exec_translateInstr_of_idle scheme va hc, Host.Outcome.next.injEq] at h
    subst h
    exact exec_translateInstr_of_idle (s := s.withParked others) scheme va hc
  · rw [hi, State.accept_of_idle _ hc, Host.Outcome.next.injEq] at h
    subst h
    rw [hi]
    exact State.accept_of_idle (s := s.withParked others) _ hc
  · rw [hi] at h
    cases h

theorem walkStep_withParked {i : Nat} {s t : State} (h : walkStep i s = .next t) (others : List Agent) :
    walkStep i (s.withParked others) = .next (t.withParked others) := by
  obtain ⟨hstalled, rfl⟩ | ⟨hanswers, rfl⟩ := walkStep_next.mp h
  · exact walkStep_stalled hstalled
  · exact walkStep_of_answered (s := s.withParked others) hanswers

theorem leafStep_withParked {i : Nat} {s t : State} (h : leafStep i s = .next t) (others : List Agent) :
    leafStep i (s.withParked others) = .next (t.withParked others) := by
  obtain ⟨b, hb, rfl⟩ := leafStep_next.mp h
  exact leafStep_of_ok (s := s.withParked others) hb

theorem blockStep_withParked {s t : State} (h : blockStep s = .next t) (others : List Agent) :
    blockStep (s.withParked others) = .next (t.withParked others) := by
  rcases blockStep_next h with ⟨hc, rfl, hr⟩ | ⟨hc, d, rest, i, hr, hd, he⟩ | ⟨i, hc, hw⟩ | ⟨i, hc, hl⟩ | ⟨hc, rfl⟩
  · exact blockStep_of_waiting (s := t.withParked others) hc hr
  · exact (blockStep_of_operation (s := s.withParked others) hc hr hd).trans (exec_withParked he others)
  · exact (blockStep_of_walkingLevel (s := s.withParked others) hc).trans (walkStep_withParked hw others)
  · exact (blockStep_of_leafFound (s := s.withParked others) hc).trans (leafStep_withParked hl others)
  · exact blockStep_of_terminal (s := s.withParked others) hc

/-- Settles O45: each kind of block step is the same beside any other instances. -/
theorem instancesAreIndependent : Obligations.InstancesAreIndependent := by
  unfold Obligations.InstancesAreIndependent
  intro s t others hturn h
  rw [step_of_blockTurn hturn] at h
  exact (step_of_blockTurn (s := s.withParked others) hturn).trans (blockStep_withParked h others)

end Sys2Proof.Machine
end

section
/-! SUPPORT. What the environment does between the steps of a call, and reset (O17, O22, O39, O40). -/

namespace Sys2Proof.Machine

/-! ## The TC register during a call -/

/-- The state with another value in the external TC register (R21). -/
def State.withTcRegister (s : State) (w : Word) : State := { s with tcRegister := w }

/-- Only Idle has a row that samples the TC register (R132, D4): the other rows do the same whatever it holds. -/
theorem blockStep_withTcRegister {s t : State} (hbusy : s.cur.block.ctrl ≠ .idle) (h : blockStep s = .next t)
    (w : Word) : blockStep (s.withTcRegister w) = .next (t.withTcRegister w) := by
  rcases blockStep_next h with ⟨hidle, -⟩ | ⟨hidle, -⟩ | ⟨i, hc, hw⟩ | ⟨i, hc, hl⟩ | ⟨hc, rfl⟩
  · exact absurd hidle hbusy
  · exact absurd hidle hbusy
  · rw [blockStep_of_walkingLevel (s := s.withTcRegister w) hc]
    obtain ⟨hstalled, rfl⟩ | ⟨hanswers, rfl⟩ := walkStep_next.mp hw
    · exact walkStep_stalled hstalled
    · exact walkStep_of_answered (s := s.withTcRegister w) hanswers
  · rw [blockStep_of_leafFound (s := s.withTcRegister w) hc]
    obtain ⟨b, hb, rfl⟩ := leafStep_next.mp hl
    exact leafStep_of_ok (s := s.withTcRegister w) hb
  · exact blockStep_of_terminal (s := s.withTcRegister w) hc

/-- Settles O22: the block's turn comes whatever the TC register holds, and out of Idle its step does not read it. -/
theorem tcChangeDuringACallIsNotSeen : Obligations.TcChangeDuringACallIsNotSeen := by
  unfold Obligations.TcChangeDuringACallIsNotSeen
  intro s t w hturn hbusy h
  rw [step_of_blockTurn hturn] at h
  exact (step_of_blockTurn (s := s.withTcRegister w) hturn).trans
    (blockStep_withTcRegister (s := s.turnTaken) hbusy h w)

/-- Settles O17: with no turn listed the block moves, and in Idle with no request it waits. -/
theorem idleBlockWaitsForARequest : Obligations.IdleBlockWaitsForARequest := by
  unfold Obligations.IdleBlockWaitsForARequest
  intro s hnone hidle hrequests
  rw [step_of_blockTurn (.inl hnone), State.turnTaken_of_nil hnone]
  exact blockStep_of_waiting hidle hrequests

/-! ## The turns of the environment -/

/-- A listed turn of the environment is taken off the schedule and applied (log 4). -/
theorem step_of_environmentTurn {s : State} {turn : Turn} {rest : List Turn} (hsch : s.schedule = turn :: rest)
    (hturn : turn ≠ .block) : step s = .next (({ s with schedule := rest } : State).applyTurn turn) := by
  rcases step_cases s with ⟨hnone | ⟨later, hblock⟩, -⟩ | ⟨first, later, hfirst, -, hstep⟩
  · exact absurd (hsch.symm.trans hnone) (List.cons_ne_nil turn rest)
  · exact absurd (List.cons.inj (hsch.symm.trans hblock)).1 hturn
  · obtain ⟨rfl, rfl⟩ := List.cons.inj (hsch.symm.trans hfirst)
    exact hstep

/-- Apart from reset and selection, what the environment does reaches the selected block through its request channel
alone (R131, R195, R197). -/
theorem State.applyTurn_keeps_call (s : State) {turn : Turn} (hreset : turn ≠ .reset)
    (hselect : ∀ k, turn ≠ .select k) :
    (s.applyTurn turn).cur.block = s.cur.block ∧ (s.applyTurn turn).cur.delivered = s.cur.delivered ∧
      (s.applyTurn turn).cur.reads = s.cur.reads ∧ (s.applyTurn turn).cur.samples = s.cur.samples ∧
      (s.applyTurn turn).schedule = s.schedule := by
  cases turn with
  | reset => exact absurd rfl hreset
  | select k => exact absurd rfl (hselect k)
  | _ => exact ⟨rfl, rfl, rfl, rfl, rfl⟩

/-- Settles O39: reset is a turn of the environment, and it writes the block alone. -/
theorem resetAbandonsTheCall : Obligations.ResetAbandonsTheCall := by
  unfold Obligations.ResetAbandonsTheCall
  intro s rest hsch
  exact step_of_environmentTurn hsch (by decide)

/-- Settles O40: the next state is the turn applied, and such a turn keeps the call. -/
theorem environmentTurnsLeaveTheCallAlone : Obligations.EnvironmentTurnsLeaveTheCallAlone := by
  unfold Obligations.EnvironmentTurnsLeaveTheCallAlone
  intro s turn rest hsch hblock hreset hselect
  exact ⟨_, step_of_environmentTurn hsch hblock, State.applyTurn_keeps_call _ hreset hselect⟩

end Sys2Proof.Machine
end
